-- ==== Sys2Proof/Word.lean ====
section
/-! DEFINITION. The word types of the core and nothing else (00_scope R7, R8; 30_encoding R48). -/

namespace Sys2Proof

/-- An 8-bit byte: a memory cell, a register V0 to VF, a timer, the immediate NN. -/
abbrev Byte := BitVec 8

/-- A 16-bit word: an opcode, the program counter, the index register, a stack entry. -/
abbrev Word := BitVec 16

/-- The 12-bit address field NNN of an opcode (30_encoding R48). -/
abbrev Addr12 := BitVec 12

/-- The 4-bit field N of an opcode (30_encoding R48). -/
abbrev Nibble := BitVec 4

end Sys2Proof
end

