-- ==== Sys2Proof/Config.lean ====
section
/-! DEFINITION. What is fixed for the core: the sizes of 00_scope R5, the values the named
parameters of 00_scope R6 can take, and the free values (the draw of 10_state R28 and the fields that
60_exceptions R105 leaves unspecified after a fault). -/

namespace Sys2Proof

/-! ## Sizes (00_scope R5)

The types of Sys2Proof write these sizes as literals (`Fin 16`, `Vector Byte 16`), so that arithmetic sees them. -/

/-- `MEM_SIZE`: addresses 0x000 to 0xFFF. -/
@[simp] abbrev Config.memSize : Nat := 4096
/-- `RESERVED_END`: the last address of the reserved range. -/
@[simp] abbrev Config.reservedEnd : Nat := 0x1FF
/-- `PROGRAM_BASE`: where a program loads, and the reset pc. -/
@[simp] abbrev Config.programBase : Nat := 0x200
/-- `MAX_PROGRAM`: the largest image in bytes. -/
@[simp] abbrev Config.maxProgram : Nat := 3584
/-- `NUM_V`: how many general registers. -/
@[simp] abbrev Config.numV : Nat := 16
/-- `STACK_DEPTH`: how many stack entries. -/
@[simp] abbrev Config.stackDepth : Nat := 16
/-- `FB_W`: framebuffer columns. -/
@[simp] abbrev Config.fbW : Nat := 64
/-- `FB_H`: framebuffer rows. -/
@[simp] abbrev Config.fbH : Nat := 32
/-- `NUM_KEYS`: how many keys. -/
@[simp] abbrev Config.numKeys : Nat := 16
/-- `FONT_BASE`: the address of glyph 0. -/
@[simp] abbrev Config.fontBase : Nat := 0
/-- `GLYPH_SIZE`: bytes of one glyph. -/
@[simp] abbrev Config.glyphSize : Nat := 5

/-! ## The named parameters (00_scope R6) -/

/-- `SHIFT_SOURCE`: which register 8XY6 and 8XYE shift (D1). -/
inductive ShiftSource where
  | x
  | y
  deriving DecidableEq, Repr

/-- `DRAW_EDGE`: what happens to sprite pixels beyond the 64×32 edge (D2). -/
inductive DrawEdge where
  | clip
  | wrap
  deriving DecidableEq, Repr

/-- `RESERVED_WRITE`: what a data write into the reserved range does (D7). -/
inductive ReservedWrite where
  | fault
  | write
  deriving DecidableEq, Repr

/-- The named parameters of 00_scope R6, except `RAND`, which is the free value `Config.randomByte`. -/
structure Params where
  shiftSource    : ShiftSource
  drawEdge       : DrawEdge
  tickDuringWait : Bool
  reservedWrite  : ReservedWrite
  decodeStrict   : Bool
  deriving DecidableEq, Repr

/-! ## Free values

Each is a constant without a body, applied to the counter `State.free`, so that nothing can be proved of it
(log entries 2 and 3). The first argument is the counter's value when the value is taken. -/

/-- `RAND` (10_state R28): the byte the draw answers. -/
opaque Config.randomByte : Nat → Byte
/-- `MEM[a]` after a fault (60_exceptions R105), the second argument being `a`. -/
opaque Config.afterFaultMem : Nat → Nat → Byte
/-- `V[k]` after a fault (60_exceptions R105), the second argument being `k`. -/
opaque Config.afterFaultV : Nat → Nat → Byte
/-- `I` after a fault (60_exceptions R105). -/
opaque Config.afterFaultI : Nat → Word
/-- `pc` after a fault (60_exceptions R105). -/
opaque Config.afterFaultPc : Nat → Word
/-- `STACK[k]` after a fault (60_exceptions R105), the second argument being `k`. -/
opaque Config.afterFaultStack : Nat → Nat → Word
/-- `SP` after a fault (60_exceptions R105), within its legal range (10_state R29). -/
opaque Config.afterFaultSp : Nat → Fin 17
/-- `DT` after a fault (60_exceptions R105). -/
opaque Config.afterFaultDt : Nat → Byte
/-- `ST` after a fault (60_exceptions R105). -/
opaque Config.afterFaultSt : Nat → Byte
/-- Row `y` of `FB` after a fault (60_exceptions R105), the second argument being `y`. -/
opaque Config.afterFaultFb : Nat → Nat → BitVec 64
/-- `KEY[k]` after a fault (60_exceptions R105), the second argument being `k`. -/
opaque Config.afterFaultKey : Nat → Nat → Bool
/-- `REDRAW` after a fault (60_exceptions R105). -/
opaque Config.afterFaultRedraw : Nat → Bool

end Sys2Proof
end

