-- ==== Sys2Proof/Syntax.lean ====
section
/-! DEFINITION. The instructions: one constructor for each of the 35 rows of spec/opcode_table.json, in the
table's order, with the operands of 30_encoding R48 and R53. -/

namespace Sys2Proof

/-- A general register's index, 0 to 15: every index names a register (10_state R15, 30_encoding R49). -/
abbrev Reg := Fin 16

/-- The flag register VF is register 15 (10_state R16). -/
abbrev Reg.vf : Reg := 15

inductive Instr where
  /-- `0NNN` SYS NNN (R59), every 0NNN but 00E0 and 00EE. -/
  | sys (nnn : Addr12)
  /-- `00E0` CLS (R81). -/
  | cls
  /-- `00EE` RET (R60). -/
  | ret
  /-- `1NNN` JP NNN (R61). -/
  | jp (nnn : Addr12)
  /-- `2NNN` CALL NNN (R62). -/
  | call (nnn : Addr12)
  /-- `3XNN` SE Vx, NN (R63). -/
  | seImm (x : Reg) (nn : Byte)
  /-- `4XNN` SNE Vx, NN (R64). -/
  | sneImm (x : Reg) (nn : Byte)
  /-- `5XY0` SE Vx, Vy (R65). -/
  | seReg (x y : Reg)
  /-- `6XNN` LD Vx, NN (R69). -/
  | ldImm (x : Reg) (nn : Byte)
  /-- `7XNN` ADD Vx, NN (R70). -/
  | addImm (x : Reg) (nn : Byte)
  /-- `8XY0` LD Vx, Vy (R71). -/
  | ldReg (x y : Reg)
  /-- `8XY1` OR Vx, Vy (R72). -/
  | orReg (x y : Reg)
  /-- `8XY2` AND Vx, Vy (R73). -/
  | andReg (x y : Reg)
  /-- `8XY3` XOR Vx, Vy (R74). -/
  | xorReg (x y : Reg)
  /-- `8XY4` ADD Vx, Vy (R75). -/
  | addReg (x y : Reg)
  /-- `8XY5` SUB Vx, Vy (R76). -/
  | subReg (x y : Reg)
  /-- `8XY6` SHR Vx, with the field Y (R77). -/
  | shr (x y : Reg)
  /-- `8XY7` SUBN Vx, Vy (R78). -/
  | subnReg (x y : Reg)
  /-- `8XYE` SHL Vx, with the field Y (R79). -/
  | shl (x y : Reg)
  /-- `9XY0` SNE Vx, Vy (R66). -/
  | sneReg (x y : Reg)
  /-- `ANNN` LD I, NNN (R90). -/
  | ldI (nnn : Addr12)
  /-- `BNNN` JP V0, NNN (R67). -/
  | jpV0 (nnn : Addr12)
  /-- `CXNN` RND Vx, NN (R80). -/
  | rnd (x : Reg) (nn : Byte)
  /-- `DXYN` DRW Vx, Vy, N (R82). -/
  | drw (x y : Reg) (n : Nibble)
  /-- `EX9E` SKP Vx (R83). -/
  | skp (x : Reg)
  /-- `EXA1` SKNP Vx (R84). -/
  | sknp (x : Reg)
  /-- `FX07` LD Vx, DT (R85). -/
  | ldVxDt (x : Reg)
  /-- `FX0A` LD Vx, K (R86). -/
  | ldVxKey (x : Reg)
  /-- `FX15` LD DT, Vx (R87). -/
  | ldDtVx (x : Reg)
  /-- `FX18` LD ST, Vx (R88). -/
  | ldStVx (x : Reg)
  /-- `FX1E` ADD I, Vx (R91). -/
  | addI (x : Reg)
  /-- `FX29` LD F, Vx (R92). -/
  | ldFont (x : Reg)
  /-- `FX33` LD B, Vx (R93). -/
  | ldBcd (x : Reg)
  /-- `FX55` LD [I], Vx (R94). -/
  | storeRegs (x : Reg)
  /-- `FX65` LD Vx, [I] (R95). -/
  | loadRegs (x : Reg)
  deriving DecidableEq, Repr

end Sys2Proof
end

