-- ==== Sys2Proof/WellFormed.lean ====
section
/-! DEFINITION. Which terms of Instr are instructions. The operand types already bound every field
(30_encoding R49: no field value is illegal), so the one check is SYS's: 0x00E0 and 0x00EE are CLS and RET
(40_control_flow R59, 30_encoding R51). -/

namespace Sys2Proof

/-- `0NNN` is a SYS opcode "excluding 0x00E0 and 0x00EE" (40_control_flow R59). -/
def sysFieldOk (nnn : Addr12) : Bool := nnn ≠ 0x0E0 && nnn ≠ 0x0EE

/-- A well-formed instruction: every constructor but SYS has no ill-formed operand. -/
def WellFormed : Instr → Bool
  | .sys nnn => sysFieldOk nnn
  | .cls | .ret => true
  | .jp _ | .call _ | .ldI _ | .jpV0 _ => true
  | .seImm _ _ | .sneImm _ _ | .ldImm _ _ | .addImm _ _ | .rnd _ _ => true
  | .seReg _ _ | .sneReg _ _ | .ldReg _ _ | .orReg _ _ | .andReg _ _ | .xorReg _ _ => true
  | .addReg _ _ | .subReg _ _ | .subnReg _ _ | .shr _ _ | .shl _ _ => true
  | .drw _ _ _ => true
  | .skp _ | .sknp _ | .ldVxDt _ | .ldVxKey _ | .ldDtVx _ | .ldStVx _ => true
  | .addI _ | .ldFont _ | .ldBcd _ | .storeRegs _ | .loadRegs _ => true

end Sys2Proof
end

