-- ==== Sys2Proof/Decode.lean ====
section
/-! DEFINITION. The decoder and the encoder, both written from 30_encoding R48, R50, R51 (log entry 12: the
bit patterns are the standard CHIP-8 encoding, to which the source defers). -/

namespace Sys2Proof

/-! ## The default parameters (00_scope R6)

They stand here, and the font in Machine/Ops.lean, because what a test could show wrong stands where it can be
mended. -/

/-- The default of every parameter: "Every rule in this spec uses the default value" (00_scope R6).
DESIGN CHOICE, the spec's own (log entries 5 to 9). -/
def Config.params : Params :=
  { shiftSource := .x, drawEdge := .clip, tickDuringWait := true, reservedWrite := .fault,
    decodeStrict := true }

/-! ## Fields of an opcode (30_encoding R48) -/

/-- The category `op[15:12]`. -/
def opCategory (op : Word) : Nibble := op.extractLsb' 12 4
/-- X, `op[11:8]`, a register index. -/
def opX (op : Word) : Reg := (op.extractLsb' 8 4).toFin
/-- Y, `op[7:4]`, a register index. -/
def opY (op : Word) : Reg := (op.extractLsb' 4 4).toFin
/-- N, `op[3:0]`. -/
def opN (op : Word) : Nibble := op.extractLsb' 0 4
/-- NN, `op[7:0]`. -/
def opNN (op : Word) : Byte := op.extractLsb' 0 8
/-- NNN, `op[11:0]`. -/
def opNNN (op : Word) : Addr12 := op.extractLsb' 0 12

/-! ## Decoding (30_encoding R51) -/

/-- Why bytes are no instruction. -/
inductive DecodeError where
  /-- The opcode has no defined instruction (30_encoding R52). -/
  | unknownOpcode (op : Word)
  /-- Fewer than two bytes: not an opcode at all (30_encoding R47). -/
  | truncated
  deriving DecidableEq, Repr

/-- Category 0 (R51): the whole opcode is compared under `DECODE_STRICT`, its low byte without.
The other values are SYS (R59), whose meaning raises UnknownOpcodeError. -/
def decodeCategory0 (strict : Bool) (op : Word) : Instr :=
  if op = 0x00E0 then .cls
  else if op = 0x00EE then .ret
  else if strict = false ∧ opNN op = 0xE0 then .cls
  else if strict = false ∧ opNN op = 0xEE then .ret
  else .sys (opNNN op)

/-- Category 8 (R51): the low nibble selects. -/
def decodeCategory8 (op : Word) : Except DecodeError Instr :=
  if opN op = 0x0 then .ok (.ldReg (opX op) (opY op))
  else if opN op = 0x1 then .ok (.orReg (opX op) (opY op))
  else if opN op = 0x2 then .ok (.andReg (opX op) (opY op))
  else if opN op = 0x3 then .ok (.xorReg (opX op) (opY op))
  else if opN op = 0x4 then .ok (.addReg (opX op) (opY op))
  else if opN op = 0x5 then .ok (.subReg (opX op) (opY op))
  else if opN op = 0x6 then .ok (.shr (opX op) (opY op))
  else if opN op = 0x7 then .ok (.subnReg (opX op) (opY op))
  else if opN op = 0xE then .ok (.shl (opX op) (opY op))
  else .error (.unknownOpcode op)

/-- Category E (R51): the low byte selects. -/
def decodeCategoryE (op : Word) : Except DecodeError Instr :=
  if opNN op = 0x9E then .ok (.skp (opX op))
  else if opNN op = 0xA1 then .ok (.sknp (opX op))
  else .error (.unknownOpcode op)

/-- Category F (R51): the low byte selects. -/
def decodeCategoryF (op : Word) : Except DecodeError Instr :=
  if opNN op = 0x07 then .ok (.ldVxDt (opX op))
  else if opNN op = 0x0A then .ok (.ldVxKey (opX op))
  else if opNN op = 0x15 then .ok (.ldDtVx (opX op))
  else if opNN op = 0x18 then .ok (.ldStVx (opX op))
  else if opNN op = 0x1E then .ok (.addI (opX op))
  else if opNN op = 0x29 then .ok (.ldFont (opX op))
  else if opNN op = 0x33 then .ok (.ldBcd (opX op))
  else if opNN op = 0x55 then .ok (.storeRegs (opX op))
  else if opNN op = 0x65 then .ok (.loadRegs (opX op))
  else .error (.unknownOpcode op)

/-- `Decode(op)` at a value of `DECODE_STRICT` (30_encoding R51), total on all 65536 opcodes. -/
def decodeWith (strict : Bool) (op : Word) : Except DecodeError Instr :=
  if opCategory op = 0x0 then .ok (decodeCategory0 strict op)
  else if opCategory op = 0x1 then .ok (.jp (opNNN op))
  else if opCategory op = 0x2 then .ok (.call (opNNN op))
  else if opCategory op = 0x3 then .ok (.seImm (opX op) (opNN op))
  else if opCategory op = 0x4 then .ok (.sneImm (opX op) (opNN op))
  else if opCategory op = 0x5 then
    if strict = true ∧ opN op ≠ 0 then .error (.unknownOpcode op)
    else .ok (.seReg (opX op) (opY op))
  else if opCategory op = 0x6 then .ok (.ldImm (opX op) (opNN op))
  else if opCategory op = 0x7 then .ok (.addImm (opX op) (opNN op))
  else if opCategory op = 0x8 then decodeCategory8 op
  else if opCategory op = 0x9 then
    if strict = true ∧ opN op ≠ 0 then .error (.unknownOpcode op)
    else .ok (.sneReg (opX op) (opY op))
  else if opCategory op = 0xA then .ok (.ldI (opNNN op))
  else if opCategory op = 0xB then .ok (.jpV0 (opNNN op))
  else if opCategory op = 0xC then .ok (.rnd (opX op) (opNN op))
  else if opCategory op = 0xD then .ok (.drw (opX op) (opY op) (opN op))
  else if opCategory op = 0xE then decodeCategoryE op
  else decodeCategoryF op

/-- `Decode(op)` at the default parameters (30_encoding R51, `DECODE_STRICT = true`, D10). -/
def decode (op : Word) : Except DecodeError Instr := decodeWith Config.params.decodeStrict op

/-- The opcode of two bytes: "compose as high<<8 | low" (20_memory R36, 30_encoding R54). -/
def opcodeOf (high low : Byte) : Word := high ++ low

/-- The decoder on any bytes: the instruction at their head and the bytes after it (R47, R36). -/
def decodeBytes : List Byte → Except DecodeError (Instr × List Byte)
  | high :: low :: rest => (decode (opcodeOf high low)).map (fun i => (i, rest))
  | [_] => .error .truncated
  | [] => .error .truncated

/-! ## Encoding (30_encoding R48, R50; the match column of spec/opcode_table.json) -/

/-- `cNNN`. -/
def wordNNN (c : Nibble) (nnn : Addr12) : Word := c ++ nnn
/-- `cXNN`. -/
def wordXNN (c : Nibble) (x : Reg) (nn : Byte) : Word := c ++ ((BitVec.ofFin x : BitVec 4) ++ nn)
/-- `cXYN`. -/
def wordXYN (c : Nibble) (x y : Reg) (n : Nibble) : Word :=
  c ++ ((BitVec.ofFin x : BitVec 4) ++ ((BitVec.ofFin y : BitVec 4) ++ n))

/-- The opcode of an instruction (30_encoding R50). -/
def encode : Instr → Word
  | .sys nnn => wordNNN 0x0 nnn
  | .cls => 0x00E0
  | .ret => 0x00EE
  | .jp nnn => wordNNN 0x1 nnn
  | .call nnn => wordNNN 0x2 nnn
  | .seImm x nn => wordXNN 0x3 x nn
  | .sneImm x nn => wordXNN 0x4 x nn
  | .seReg x y => wordXYN 0x5 x y 0x0
  | .ldImm x nn => wordXNN 0x6 x nn
  | .addImm x nn => wordXNN 0x7 x nn
  | .ldReg x y => wordXYN 0x8 x y 0x0
  | .orReg x y => wordXYN 0x8 x y 0x1
  | .andReg x y => wordXYN 0x8 x y 0x2
  | .xorReg x y => wordXYN 0x8 x y 0x3
  | .addReg x y => wordXYN 0x8 x y 0x4
  | .subReg x y => wordXYN 0x8 x y 0x5
  | .shr x y => wordXYN 0x8 x y 0x6
  | .subnReg x y => wordXYN 0x8 x y 0x7
  | .shl x y => wordXYN 0x8 x y 0xE
  | .sneReg x y => wordXYN 0x9 x y 0x0
  | .ldI nnn => wordNNN 0xA nnn
  | .jpV0 nnn => wordNNN 0xB nnn
  | .rnd x nn => wordXNN 0xC x nn
  | .drw x y n => wordXYN 0xD x y n
  | .skp x => wordXNN 0xE x 0x9E
  | .sknp x => wordXNN 0xE x 0xA1
  | .ldVxDt x => wordXNN 0xF x 0x07
  | .ldVxKey x => wordXNN 0xF x 0x0A
  | .ldDtVx x => wordXNN 0xF x 0x15
  | .ldStVx x => wordXNN 0xF x 0x18
  | .addI x => wordXNN 0xF x 0x1E
  | .ldFont x => wordXNN 0xF x 0x29
  | .ldBcd x => wordXNN 0xF x 0x33
  | .storeRegs x => wordXNN 0xF x 0x55
  | .loadRegs x => wordXNN 0xF x 0x65

/-! ## The words of spec/opcode_table.json -/

/-- The opcode whose bits are `w`, of which the table gives the low `nbits`; the bits above are zero, and an
opcode has 16 (30_encoding R47). -/
def tableOpcode (nbits w : Nat) : Word := BitVec.ofNat 16 (w % 2 ^ nbits)

/-- The first byte of an opcode in memory: its high byte (20_memory R36). -/
def highByte (op : Word) : Byte := op.extractLsb' 8 8
/-- The second byte of an opcode in memory: its low byte (20_memory R36). -/
def lowByte (op : Word) : Byte := op.extractLsb' 0 8

/-- What the decoder reads from the table's word `w`, laid out in memory order. -/
def decodeTableWord (nbits w : Nat) : Option Instr :=
  match decodeBytes [highByte (tableOpcode nbits w), lowByte (tableOpcode nbits w)] with
  | .ok (i, _) => some i
  | .error _ => none

end Sys2Proof
end

