-- ==== Sys2Proof/Machine/State.lean ====
section
/-! DEFINITION. The state of the core (10_state R13), the fault records (60_exceptions R96, R97), the reasons a
step can stop, and the state right after reset (70_reset_and_hazards R120). -/

namespace Sys2Proof.Machine

/-- `MEM` (20_memory R32) as a list of cells in one canonical form (`Memory.wf`): addresses strictly rising
and below 4096, no cell equal to what an unlisted address reads as (`Memory.unlisted`, its reset byte). -/
abbrev Memory := List Host.Cell

/-- `FB` (10_state R25): row `y` as 64 bits, bit `x` of it being the pixel `FB[x, y]`. -/
abbrev Framebuffer := Vector (BitVec 64) 32

/-- A fault record of a step (60_exceptions R96, R97). Code 8, ProgramTooLargeError, is not a step fault: it is
`LoadResult.programTooLarge` in Machine/HostOps.lean. -/
inductive FaultRecord where
  /-- Code 1 (R98): the opcode has no defined instruction. -/
  | unknownOpcode (op pc : Word)
  /-- Code 2 (R99): pc + 1 is above 0xFFF; no opcode exists yet. -/
  | outOfBoundsFetch (pc : Word)
  /-- Code 3 (R100): a data address above 0xFFF, the lowest such one. -/
  | memoryBounds (addr : Nat) (op pc : Word)
  /-- Code 4 (R101): CALL with SP = 16. -/
  | stackOverflow (op pc : Word)
  /-- Code 5 (R101): RET with SP = 0. -/
  | stackUnderflow (op pc : Word)
  /-- Code 6 (R102): EX9E or EXA1 with V[x] above 0xF. -/
  | keyIndex (value : Byte) (op pc : Word)
  /-- Code 7 (R103): a write to the reserved range, the lowest such address. -/
  | reservedWrite (addr : Nat) (op pc : Word)
  deriving DecidableEq, Repr

/-- The state of the core (10_state R13), one field for each row of its table, and the model's own `free`. -/
structure State where
  /-- `MEM` -/
  mem : Memory
  /-- `V[0..15]` -/
  v : Vector Byte 16
  /-- `I` -/
  i : Word
  /-- `pc` -/
  pc : Word
  /-- `STACK[0..15]`, 16 bits an entry (D13, log entry 20) -/
  stack : Vector Word 16
  /-- `SP`, the entries in use, 0 to 16 (R21, R29) -/
  sp : Fin 17
  /-- `DT` -/
  dt : Byte
  /-- `ST` -/
  st : Byte
  /-- `FB` -/
  fb : Framebuffer
  /-- `KEY[0..15]`, true is pressed (R26; D15, log entry 21) -/
  key : Vector Bool 16
  /-- `REDRAW` -/
  redraw : Bool
  /-- `HALTED` (R30): none while the core runs -/
  halted : Option FaultRecord
  /-- Not the spec's: how many free values were taken so far (log entries 2, 3 and 4). -/
  free : Nat
  deriving DecidableEq, Repr

/-- Why the machine has no move. The faults of 60_exceptions R96 are no constructors here: raising one is a
step to the halted state (`raise` in Machine/Ops.lean, log entry 1). -/
inductive Fault where
  /-- Raised by `step` alone, on a core whose `HALTED` is not none: "the core has no step" until reset
  (60_exceptions R105, U18 of 93). Safe: nothing can be proved of a step the spec does not give. -/
  | halted (r : FaultRecord)
  deriving DecidableEq, Repr

/-- Why an instruction is refused. -/
inductive Refusal where
  /-- Raised by an arm of `exec` without a meaning, by the instruction's name; no arm is left so. Safe. -/
  | notModelled (mnemonic : String)
  deriving DecidableEq, Repr

/-- The machine right after reset (70_reset_and_hazards R120): "Every field has a defined value after reset".
Nothing is listed in `mem`, since an unlisted address reads as its reset byte. `free := 0` is a DESIGN CHOICE
(log entry 4). -/
def State.reset : State :=
  { mem := [], v := Vector.replicate Config.numV 0, i := 0, pc := 0x200,
    stack := Vector.replicate Config.stackDepth 0, sp := 0, dt := 0, st := 0,
    fb := Vector.replicate Config.fbH 0, key := Vector.replicate Config.numKeys false,
    redraw := true, halted := none, free := 0 }

end Sys2Proof.Machine
end

