-- ==== Sys2Proof/Machine/Ops.lean ====
section
/-! DEFINITION. The operations shared by the instructions: memory (20_memory R32 to R41), registers and pc
(10_state R15 to R20), the call stack (10_state R22, R23), raising a fault (60_exceptions R105) and the timer
tick (60_exceptions R110). There is no return from a fault (60_exceptions R106): only the host's reset. -/

namespace Sys2Proof

/-! ## The font (20_memory R35) -/

/-- `FONT`: glyphs 0 to F, five bytes each. PRESUMED (log entry 13): the source lists no byte values and
the spec takes the standard CHIP-8 table (D20). Unsafe for programs that read or draw glyph bytes. -/
def Config.font : List Byte :=
  [0xF0, 0x90, 0x90, 0x90, 0xF0] ++ [0x20, 0x60, 0x20, 0x20, 0x70] ++
  [0xF0, 0x10, 0xF0, 0x80, 0xF0] ++ [0xF0, 0x10, 0xF0, 0x10, 0xF0] ++
  [0x90, 0x90, 0xF0, 0x10, 0x10] ++ [0xF0, 0x80, 0xF0, 0x10, 0xF0] ++
  [0xF0, 0x80, 0xF0, 0x90, 0xF0] ++ [0xF0, 0x10, 0x20, 0x40, 0x40] ++
  [0xF0, 0x90, 0xF0, 0x90, 0xF0] ++ [0xF0, 0x90, 0xF0, 0x10, 0xF0] ++
  [0xF0, 0x90, 0xF0, 0x90, 0x90] ++ [0xE0, 0x90, 0xE0, 0x90, 0xE0] ++
  [0xF0, 0x80, 0x80, 0x80, 0xF0] ++ [0xE0, 0x90, 0x90, 0x90, 0xE0] ++
  [0xF0, 0x80, 0xF0, 0x80, 0xF0] ++ [0xF0, 0x80, 0xF0, 0x80, 0x80]

end Sys2Proof

namespace Sys2Proof.Machine

/-! ## Memory cells -/

/-- What an address reads as that no cell lists: its byte after reset (20_memory R34, R35). -/
def Memory.unlisted (a : Nat) : Byte := (Config.font[a - Config.fontBase]?).getD 0

/-- `MEM[a]`, with no check. -/
def Memory.read : Memory → Nat → Byte
  | [], a => Memory.unlisted a
  | (k, c) :: m, a => if k = a then c else Memory.read m a

/-- List the byte `b` at address `a`, at its place in the rising order. -/
def Memory.list : Memory → Nat → Byte → Memory
  | [], a, b => [(a, b)]
  | (k, c) :: m, a, b =>
    if a < k then (a, b) :: (k, c) :: m
    else if a = k then (a, b) :: m
    else (k, c) :: Memory.list m a b

/-- List nothing at address `a`. -/
def Memory.unlist (m : Memory) (a : Nat) : Memory := m.filter (fun c => c.1 ≠ a)

/-- `MEM[a] <- b`, with no check: the byte an unlisted address reads as is not listed. -/
def Memory.write (m : Memory) (a : Nat) (b : Byte) : Memory :=
  if b = Memory.unlisted a then m.unlist a else m.list a b

/-- The canonical form of a memory. -/
abbrev Memory.wf (m : Memory) : Prop :=
  m.Pairwise (fun c d => c.1 < d.1) ∧ ∀ c ∈ m, c.1 < Config.memSize ∧ c.2 ≠ Memory.unlisted c.1

/-- The canonical memory whose byte at each address of the address space is `f` of it. -/
@[irreducible] def Memory.ofBytes (f : Nat → Byte) : Memory :=
  ((List.range Config.memSize).filter (fun a => f a ≠ Memory.unlisted a)).map (fun a => (a, f a))

/-- The `n` bytes from address `a` up, with no check. -/
def Memory.readBytes (m : Memory) (a n : Nat) : List Byte := (List.range n).map (fun k => m.read (a + k))

/-- Write the bytes from address `a` up, in the order of the list, with no check. -/
def Memory.writeBytes : Memory → Nat → List Byte → Memory
  | m, _, [] => m
  | m, a, b :: bs => Memory.writeBytes (m.write a b) (a + 1) bs

/-! ## Checked accesses (20_memory R39, R40, R41) -/

/-- Why an access to memory is refused by the core. -/
inductive AccessError where
  /-- the address is above 0xFFF (R39, R40) -/
  | bounds (addr : Nat)
  /-- a write at or below 0x1FF under `RESERVED_WRITE = fault` (R40) -/
  | reserved (addr : Nat)
  deriving DecidableEq, Repr

/-- The check of `MemRead(a, 1)` (20_memory R39), `a` an unbounded natural. -/
def readCheck (a : Nat) : Option AccessError :=
  if a > 0xFFF then some (.bounds a) else none

/-- The checks of `MemWrite(a, 1, v)` (20_memory R40), bounds first. -/
def writeCheck (policy : ReservedWrite) (a : Nat) : Option AccessError :=
  if a > 0xFFF then some (.bounds a)
  else if a ≤ Config.reservedEnd ∧ policy = .fault then some (.reserved a)
  else none

/-- The first failing check of the `n` addresses from `a` up, in increasing order (20_memory R41). -/
def firstError (check : Nat → Option AccessError) : Nat → Nat → Option AccessError
  | _, 0 => none
  | a, n + 1 =>
    match check a with
    | some e => some e
    | none => firstError check (a + 1) n

/-- Read `n` bytes from `a` up, every address checked before any access (20_memory R39, R41). -/
def memRead (s : State) (a n : Nat) : Except AccessError (List Byte) :=
  match firstError readCheck a n with
  | some e => .error e
  | none => .ok (s.mem.readBytes a n)

/-- Write bytes from `a` up, every address checked before any access (20_memory R40, R41). -/
def memWrite (policy : ReservedWrite) (s : State) (a : Nat) (bytes : List Byte) : Except AccessError State :=
  match firstError (writeCheck policy) a bytes.length with
  | some e => .error e
  | none => .ok { s with mem := s.mem.writeBytes a bytes }

/-- The record of a refused access, with the opcode and the pc of the instruction (60_exceptions R100, R103). -/
def AccessError.record (op pc : Word) : AccessError → FaultRecord
  | .bounds a => .memoryBounds a op pc
  | .reserved a => .reservedWrite a op pc

/-! ## Registers and pc -/

/-- `V[x]` (10_state R15). -/
def State.getV (s : State) (x : Reg) : Byte := s.v.get x

/-- `V[x] <- b` (10_state R15). -/
def State.setV (s : State) (x : Reg) (b : Byte) : State := { s with v := s.v.set x b }

/-- `REDRAW <- b` (10_state R27). -/
def State.setRedraw (s : State) (b : Bool) : State := { s with redraw := b }

/-- `pc <- pc + n`, as `trunc_16` (10_state R18, R19). -/
def State.advance (s : State) (n : Nat) : State := { s with pc := BitVec.ofNat 16 (s.pc.toNat + n) }

/-- `pc <- pc + 4` when the skip is taken and `pc <- pc + 2` when it is not (30_encoding R56). -/
def State.skipIf (s : State) (taken : Bool) : State :=
  s.advance (if taken then 4 else 2)

/-! ## The call stack -/

/-- `Push(v)` (10_state R22); none when SP is 16, which CALL turns into a fault (D4, log entry 19). -/
def State.push (s : State) (a : Word) : Option State :=
  if h : s.sp.val < 16 then
    some { s with stack := s.stack.set s.sp.val a, sp := ⟨s.sp.val + 1, by omega⟩ }
  else none

/-- `Pop()` (10_state R23): the popped value and the state after; none when SP is 0, which RET turns into a fault
(D5, log entry 19). The entry stays in place (D13, log entry 20). -/
def State.pop (s : State) : Option (Word × State) :=
  if h : s.sp.val = 0 then none
  else some (s.stack[s.sp.val - 1]'(by omega), { s with sp := ⟨s.sp.val - 1, by omega⟩ })

/-! ## Faults and the timer tick -/

/-- The state a fault leaves (60_exceptions R105): `HALTED` holds the record and every other field is
unspecified, a free value each (log entry 2). -/
def State.afterFault (s : State) (r : FaultRecord) : State :=
  { mem := Memory.ofBytes (Config.afterFaultMem s.free)
    v := Vector.ofFn (fun k => Config.afterFaultV s.free k)
    i := Config.afterFaultI s.free
    pc := Config.afterFaultPc s.free
    stack := Vector.ofFn (fun k => Config.afterFaultStack s.free k)
    sp := Config.afterFaultSp s.free
    dt := Config.afterFaultDt s.free
    st := Config.afterFaultSt s.free
    fb := Vector.ofFn (fun y => Config.afterFaultFb s.free y)
    key := Vector.ofFn (fun k => Config.afterFaultKey s.free k)
    redraw := Config.afterFaultRedraw s.free
    halted := some r
    free := s.free + 1 }

/-- `raise <Fault>(info)` (00_scope R9, 60_exceptions R105): taking a fault is a step to the halted state. -/
def raise (s : State) (r : FaultRecord) : Host.Outcome State Fault Refusal := .next (s.afterFault r)

/-- One timer's tick: down by one, "never decrement below 0" (60_exceptions R110). -/
def tickTimer (t : Byte) : Byte := if t.toNat > 0 then BitVec.ofNat 8 (t.toNat - 1) else t

/-- `TimerTick()` (60_exceptions R110). -/
def State.tick (s : State) : State := { s with dt := tickTimer s.dt, st := tickTimer s.st }

end Sys2Proof.Machine
end

