-- ==== Sys2Proof/Machine/Flags.lean ====
section
/-! DEFINITION. The values the flag logic writes to VF (10_state R16, 41_alu R68, 44_index_memory R91), and the
write itself. DXYN's collision is computed by the draw (Machine/Display.lean). -/

namespace Sys2Proof.Machine

/-- A flag as the byte VF gets: 1 or 0. -/
def flagByte (b : Bool) : Byte := if b then 1 else 0

/-- `V[0xF] <- flag`: the last register write of an instruction with flag logic (10_state R16). -/
def State.setFlag (s : State) (b : Bool) : State := s.setV Reg.vf (flagByte b)

/-- Carry: the exact sum exceeds 255 (41_alu R75). -/
def carry (a b : Byte) : Bool := decide (a.toNat + b.toNat > 255)

/-- No borrow: the minuend is at least the subtrahend (41_alu R76, R78). -/
def noBorrow (minuend subtrahend : Byte) : Bool := decide (minuend.toNat ≥ subtrahend.toNat)

/-- The bit a right shift drops: bit 0 (41_alu R77). -/
def lowBit (v : Byte) : Bool := v.getLsbD 0

/-- The bit a left shift drops: bit 7 (41_alu R79). -/
def highBit (v : Byte) : Bool := v.getLsbD 7

/-- FX1E's flag: the exact sum exceeds 0xFFF (44_index_memory R91). -/
def indexOverflow (i : Word) (b : Byte) : Bool := decide (i.toNat + b.toNat > 0xFFF)

end Sys2Proof.Machine
end

