-- ==== Sys2Proof/Machine/Operands.lean ====
section
/-! DEFINITION. What the operand forms stand for (30_encoding R49): addresses, the shifted register, a key
index, the lowest pressed key, a glyph address, the decimal digits, the register dump. -/

namespace Sys2Proof.Machine

/-- NNN as an absolute address: zero-extended (30_encoding R49). -/
def absolute (nnn : Addr12) : Word := BitVec.ofNat 16 nnn.toNat

/-- `trunc_16(nnn + V[0])` (40_control_flow R67). -/
def State.offsetTarget (s : State) (nnn : Addr12) : Word := BitVec.ofNat 16 (nnn.toNat + (s.getV 0).toNat)

/-- The address of byte 0 of a data access: I as an exact natural (44_index_memory R89). -/
def State.dataAddr (s : State) : Nat := s.i.toNat

/-- The value 8XY6 and 8XYE shift (41_alu R77, R79). -/
def State.shiftOperand (s : State) (source : ShiftSource) (x y : Reg) : Byte :=
  match source with
  | .x => s.getV x
  | .y => s.getV y

/-- The key index V[x] names, or the value when it is above 0xF (43_keys_timers R83, R84). -/
def State.keyOperand (s : State) (x : Reg) : Except Byte (Fin 16) :=
  if h : (s.getV x).toNat < 16 then .ok ⟨(s.getV x).toNat, h⟩ else .error (s.getV x)

/-- `KEY[k]` (10_state R26). -/
def State.keyDown (s : State) (k : Fin 16) : Bool := s.key.get k

/-- `min { k | KEY[k] }`, none when no key is pressed (43_keys_timers R86). -/
def State.lowestKey (s : State) : Option (Fin 16) :=
  (List.finRange 16).find? (fun k => s.keyDown k)

/-- `(V[x] & 0xF) * 5`, with `FONT_BASE = 0` (44_index_memory R92). -/
def glyphAddr (b : Byte) : Word := BitVec.ofNat 16 (Config.fontBase + (b.toNat % 16) * Config.glyphSize)

/-- Hundreds, tens and ones of a byte, in memory order (44_index_memory R93, 20_memory R36). -/
def bcdDigits (b : Byte) : List Byte :=
  [BitVec.ofNat 8 (b.toNat / 100), BitVec.ofNat 8 (b.toNat / 10 % 10), BitVec.ofNat 8 (b.toNat % 10)]

/-- `V[0] .. V[x]`, inclusive (44_index_memory R94). -/
def State.dumpRegs (s : State) (x : Reg) : List Byte := s.v.toList.take (x.val + 1)

/-- `V[0] .. V[x] <- bytes`, inclusive (44_index_memory R95). -/
def State.fillRegs (s : State) (x : Reg) (bytes : List Byte) : State :=
  { s with v := Vector.ofFn (fun k => if k.val ≤ x.val then bytes.getD k.val 0 else s.v.get k) }

/-- `I <- trunc_16(I + n)` (44_index_memory R91, R94, R95). -/
def State.addToI (s : State) (n : Nat) : State := { s with i := BitVec.ofNat 16 (s.i.toNat + n) }

end Sys2Proof.Machine
end

