-- ==== Sys2Proof/Machine/Alu.lean ====
section
/-! DEFINITION. Register arithmetic and logic (41_alu R68 to R80). Each meaning reads its operands from the
state it is given, then writes the result, then VF, then pc (10_state R16, 30_encoding R56). -/

namespace Sys2Proof.Machine

/-- Write `V[x]`, then `pc <- pc + 2`. -/
def result (s : State) (x : Reg) (b : Byte) : Host.Outcome State Fault Refusal :=
  .next ((s.setV x b).advance 2)

/-- Write `V[x]`, then VF, then `pc <- pc + 2`: with x = F the flag is what stays (10_state R16). -/
def resultFlag (s : State) (x : Reg) (b : Byte) (flag : Bool) : Host.Outcome State Fault Refusal :=
  .next (((s.setV x b).setFlag flag).advance 2)

/-- `6XNN` LD Vx, NN (R69). -/
def execLdImm (x : Reg) (nn : Byte) (s : State) : Host.Outcome State Fault Refusal :=
  result s x nn

/-- `7XNN` ADD Vx, NN: wraps, no flag (R70). -/
def execAddImm (x : Reg) (nn : Byte) (s : State) : Host.Outcome State Fault Refusal :=
  result s x (s.getV x + nn)

/-- `8XY0` LD Vx, Vy (R71). -/
def execLdReg (x y : Reg) (s : State) : Host.Outcome State Fault Refusal :=
  result s x (s.getV y)

/-- `8XY1` OR Vx, Vy: no flag effect (R72). -/
def execOrReg (x y : Reg) (s : State) : Host.Outcome State Fault Refusal :=
  result s x (s.getV x ||| s.getV y)

/-- `8XY2` AND Vx, Vy (R73). -/
def execAndReg (x y : Reg) (s : State) : Host.Outcome State Fault Refusal :=
  result s x (s.getV x &&& s.getV y)

/-- `8XY3` XOR Vx, Vy (R74). -/
def execXorReg (x y : Reg) (s : State) : Host.Outcome State Fault Refusal :=
  result s x (s.getV x ^^^ s.getV y)

/-- `8XY4` ADD Vx, Vy: VF is the carry (R75). -/
def execAddReg (x y : Reg) (s : State) : Host.Outcome State Fault Refusal :=
  resultFlag s x (s.getV x + s.getV y) (carry (s.getV x) (s.getV y))

/-- `8XY5` SUB Vx, Vy: Vx - Vy, VF is no borrow (R76). -/
def execSubReg (x y : Reg) (s : State) : Host.Outcome State Fault Refusal :=
  resultFlag s x (s.getV x - s.getV y) (noBorrow (s.getV x) (s.getV y))

/-- 8XY6 at a value of `SHIFT_SOURCE` (R77). -/
def shiftRight (source : ShiftSource) (x y : Reg) (s : State) : Host.Outcome State Fault Refusal :=
  resultFlag s x (s.shiftOperand source x y >>> 1) (lowBit (s.shiftOperand source x y))

/-- 8XYE at a value of `SHIFT_SOURCE` (R79). -/
def shiftLeft (source : ShiftSource) (x y : Reg) (s : State) : Host.Outcome State Fault Refusal :=
  resultFlag s x (s.shiftOperand source x y <<< 1) (highBit (s.shiftOperand source x y))

/-- `8XY6` SHR Vx, at the default `SHIFT_SOURCE = X` (R77, D1). -/
def execShr (x y : Reg) (s : State) : Host.Outcome State Fault Refusal :=
  shiftRight Config.params.shiftSource x y s

/-- `8XY7` SUBN Vx, Vy: Vy - Vx, VF is no borrow (R78). -/
def execSubnReg (x y : Reg) (s : State) : Host.Outcome State Fault Refusal :=
  resultFlag s x (s.getV y - s.getV x) (noBorrow (s.getV y) (s.getV x))

/-- `8XYE` SHL Vx, at the default `SHIFT_SOURCE = X` (R79, D1). -/
def execShl (x y : Reg) (s : State) : Host.Outcome State Fault Refusal :=
  shiftLeft Config.params.shiftSource x y s

/-- `CXNN` RND Vx, NN: a fresh byte of the draw, masked (R80, R28, log entry 3). The draw is a free value, taken
at the counter `free`, which moves on. -/
def execRnd (x : Reg) (nn : Byte) (s : State) : Host.Outcome State Fault Refusal :=
  result { s with free := s.free + 1 } x (Config.randomByte s.free &&& nn)

end Sys2Proof.Machine
end

