-- ==== Sys2Proof/Machine/ControlFlow.lean ====
section
/-! DEFINITION. Control flow (40_control_flow R58 to R67): SYS, RET, JP, CALL, the skips, JP V0. -/

namespace Sys2Proof.Machine

/-- `0NNN` SYS: always UnknownOpcodeError (R59, D9). -/
def execSys (nnn : Addr12) (s : State) : Host.Outcome State Fault Refusal :=
  raise s (.unknownOpcode (encode (.sys nnn)) s.pc)

/-- `00EE` RET: the popped address plus 2 (R60). -/
def execRet (s : State) : Host.Outcome State Fault Refusal :=
  match s.pop with
  | none => raise s (.stackUnderflow (encode .ret) s.pc)
  | some (a, t) => .next { t with pc := BitVec.ofNat 16 (a.toNat + 2) }

/-- `1NNN` JP NNN (R61). -/
def execJp (nnn : Addr12) (s : State) : Host.Outcome State Fault Refusal :=
  .next { s with pc := absolute nnn }

/-- `2NNN` CALL NNN: pushes the CALL's own address (R62). -/
def execCall (nnn : Addr12) (s : State) : Host.Outcome State Fault Refusal :=
  match s.push s.pc with
  | none => raise s (.stackOverflow (encode (.call nnn)) s.pc)
  | some t => .next { t with pc := absolute nnn }

/-- `3XNN` SE Vx, NN (R63). -/
def execSeImm (x : Reg) (nn : Byte) (s : State) : Host.Outcome State Fault Refusal :=
  .next (s.skipIf (s.getV x == nn))

/-- `4XNN` SNE Vx, NN (R64). -/
def execSneImm (x : Reg) (nn : Byte) (s : State) : Host.Outcome State Fault Refusal :=
  .next (s.skipIf (s.getV x != nn))

/-- `5XY0` SE Vx, Vy (R65). -/
def execSeReg (x y : Reg) (s : State) : Host.Outcome State Fault Refusal :=
  .next (s.skipIf (s.getV x == s.getV y))

/-- `9XY0` SNE Vx, Vy (R66). -/
def execSneReg (x y : Reg) (s : State) : Host.Outcome State Fault Refusal :=
  .next (s.skipIf (s.getV x != s.getV y))

/-- `BNNN` JP V0, NNN: the register is V0 whatever nibble 2 holds, and the sum is not masked (R67, D12). -/
def execJpV0 (nnn : Addr12) (s : State) : Host.Outcome State Fault Refusal :=
  .next { s with pc := s.offsetTarget nnn }

end Sys2Proof.Machine
end

