-- ==== Sys2Proof/Machine/Display.lean ====
section
/-! DEFINITION. The framebuffer and the display instructions (10_state R25, R27; 42_display R81, R82). -/

namespace Sys2Proof.Machine

/-! ## Pixels -/

/-- `FB[px, py]`; a place off the grid holds no pixel and reads false. -/
def Framebuffer.pixel (fb : Framebuffer) (px py : Nat) : Bool :=
  if h : py < 32 then fb[py].getLsbD px else false

/-- `FB[px, py] <- FB[px, py] ^ 1`. -/
def Framebuffer.toggle (fb : Framebuffer) (px py : Nat) : Framebuffer :=
  if h : py < 32 then fb.set py (fb[py] ^^^ BitVec.twoPow 64 px) else fb

/-- The framebuffer with every pixel 0. -/
def Framebuffer.clear : Framebuffer := Vector.replicate Config.fbH 0

/-- A draw in progress: the pixels, and whether a set pixel was unset so far. -/
structure Draw where
  fb : Framebuffer
  collision : Bool
  deriving DecidableEq, Repr

/-- Where a sprite pixel falls, at a value of `DRAW_EDGE` (R82). -/
def edgePlace (edge : DrawEdge) (px py : Nat) : Nat × Nat :=
  match edge with
  | .clip => (px, py)
  | .wrap => (px % Config.fbW, py % Config.fbH)

/-- One set sprite bit at column `px` and row `py`: dropped off the grid, else the pixel is toggled, and one that
was set is a collision (R82). -/
def drawPixel (edge : DrawEdge) (px py : Nat) (d : Draw) : Draw :=
  let p := edgePlace edge px py
  if p.1 < Config.fbW ∧ p.2 < Config.fbH then
    { fb := d.fb.toggle p.1 p.2, collision := d.collision || d.fb.pixel p.1 p.2 }
  else d

/-- One sprite row at row `py`: bit 7 is the leftmost pixel, at column `x0` (R82, D21). -/
def drawRow (edge : DrawEdge) (x0 py : Nat) (row : Byte) (d : Draw) : Draw :=
  (List.range 8).foldl (fun d c => if row.getLsbD (7 - c) then drawPixel edge (x0 + c) py d else d) d

/-- The sprite's rows from row `py` down (R82). -/
def drawRows (edge : DrawEdge) (x0 : Nat) : Nat → List Byte → Draw → Draw
  | _, [], d => d
  | py, row :: rows, d => drawRows edge x0 (py + 1) rows (drawRow edge x0 py row d)

/-! ## The instructions -/

/-- `00E0` CLS (R81). -/
def execCls (s : State) : Host.Outcome State Fault Refusal :=
  .next ({ s with fb := Framebuffer.clear, redraw := true }.advance 2)

/-- The sprite `rows` drawn at (V[x], V[y]), then REDRAW, VF and pc (R82). -/
def drawSprite (edge : DrawEdge) (x y : Reg) (rows : List Byte) (s : State) : State :=
  let d := drawRows edge (s.getV x).toNat (s.getV y).toNat rows { fb := s.fb, collision := false }
  ({ s with fb := d.fb, redraw := true }.setFlag d.collision).advance 2

/-- DXYN at a value of `DRAW_EDGE` (R82): every sprite address is checked before any pixel changes. -/
def draw (edge : DrawEdge) (x y : Reg) (n : Nibble) (s : State) : Host.Outcome State Fault Refusal :=
  match memRead s s.dataAddr n.toNat with
  | .error e => raise s (e.record (encode (.drw x y n)) s.pc)
  | .ok rows => .next (drawSprite edge x y rows s)

/-- `DXYN` DRW Vx, Vy, N, at the default `DRAW_EDGE = clip` (R82, D2). -/
def execDrw (x y : Reg) (n : Nibble) (s : State) : Host.Outcome State Fault Refusal :=
  draw Config.params.drawEdge x y n s

end Sys2Proof.Machine
end

