-- ==== Sys2Proof/Machine/IndexMemory.lean ====
section
/-! DEFINITION. The index register and memory (44_index_memory R89 to R95). -/

namespace Sys2Proof.Machine

/-- `ANNN` LD I, NNN (R90). -/
def execLdI (nnn : Addr12) (s : State) : Host.Outcome State Fault Refusal :=
  .next ({ s with i := absolute nnn }.advance 2)

/-- `FX1E` ADD I, Vx: I wraps at 16 bits, VF tells a sum above 0xFFF (R91, D12). -/
def execAddI (x : Reg) (s : State) : Host.Outcome State Fault Refusal :=
  .next (((s.addToI (s.getV x).toNat).setFlag (indexOverflow s.i (s.getV x))).advance 2)

/-- `FX29` LD F, Vx: the glyph of V[x]'s low nibble (R92). -/
def execLdFont (x : Reg) (s : State) : Host.Outcome State Fault Refusal :=
  .next ({ s with i := glyphAddr (s.getV x) }.advance 2)

/-- FX33 at a value of `RESERVED_WRITE` (R93): the three addresses are checked, then the digits written. -/
def storeBcd (policy : ReservedWrite) (x : Reg) (s : State) : Host.Outcome State Fault Refusal :=
  match memWrite policy s s.dataAddr (bcdDigits (s.getV x)) with
  | .error e => raise s (e.record (encode (.ldBcd x)) s.pc)
  | .ok t => .next (t.advance 2)

/-- FX55 at a value of `RESERVED_WRITE` (R94): V0..Vx stored, then I moves on by X + 1. -/
def dump (policy : ReservedWrite) (x : Reg) (s : State) : Host.Outcome State Fault Refusal :=
  match memWrite policy s s.dataAddr (s.dumpRegs x) with
  | .error e => raise s (e.record (encode (.storeRegs x)) s.pc)
  | .ok t => .next ((t.addToI (x.val + 1)).advance 2)

/-- `FX33` LD B, Vx, at the default `RESERVED_WRITE = fault` (R93, D7). -/
def execLdBcd (x : Reg) (s : State) : Host.Outcome State Fault Refusal :=
  storeBcd Config.params.reservedWrite x s

/-- `FX55` LD [I], Vx, at the default `RESERVED_WRITE = fault` (R94, D7). -/
def execStoreRegs (x : Reg) (s : State) : Host.Outcome State Fault Refusal :=
  dump Config.params.reservedWrite x s

/-- `FX65` LD Vx, [I]: V0..Vx loaded, then I moves on by X + 1 (R95). -/
def execLoadRegs (x : Reg) (s : State) : Host.Outcome State Fault Refusal :=
  match memRead s s.dataAddr (x.val + 1) with
  | .error e => raise s (e.record (encode (.loadRegs x)) s.pc)
  | .ok bytes => .next (((s.fillRegs x bytes).addToI (x.val + 1)).advance 2)

end Sys2Proof.Machine
end

