-- ==== Sys2Proof/Machine/KeysTimers.lean ====
section
/-! DEFINITION. Keys and timers (43_keys_timers R83 to R88). The tick that follows in the same step is
`State.tick` (60_exceptions R110), run by the step and not here. -/

namespace Sys2Proof.Machine

/-- `EX9E` SKP Vx (R83); V[x] above 0xF is KeyIndexError (D6). -/
def execSkp (x : Reg) (s : State) : Host.Outcome State Fault Refusal :=
  match s.keyOperand x with
  | .error value => raise s (.keyIndex value (encode (.skp x)) s.pc)
  | .ok k => .next (s.skipIf (s.keyDown k))

/-- `EXA1` SKNP Vx (R84); V[x] above 0xF is KeyIndexError (D6). -/
def execSknp (x : Reg) (s : State) : Host.Outcome State Fault Refusal :=
  match s.keyOperand x with
  | .error value => raise s (.keyIndex value (encode (.sknp x)) s.pc)
  | .ok k => .next (s.skipIf (!s.keyDown k))

/-- `FX07` LD Vx, DT: DT as it is before this step's tick (R85). -/
def execLdVxDt (x : Reg) (s : State) : Host.Outcome State Fault Refusal :=
  .next ((s.setV x s.dt).advance 2)

/-- `FX0A` LD Vx, K: the lowest pressed key, or the stall, which writes nothing, pc included (R86). -/
def execLdVxKey (x : Reg) (s : State) : Host.Outcome State Fault Refusal :=
  match s.lowestKey with
  | some k => .next ((s.setV x (BitVec.ofNat 8 k.val)).advance 2)
  | none => .next s

/-- `FX15` LD DT, Vx (R87). -/
def execLdDtVx (x : Reg) (s : State) : Host.Outcome State Fault Refusal :=
  .next ({ s with dt := s.getV x }.advance 2)

/-- `FX18` LD ST, Vx (R88). -/
def execLdStVx (x : Reg) (s : State) : Host.Outcome State Fault Refusal :=
  .next ({ s with st := s.getV x }.advance 2)

end Sys2Proof.Machine
end

