-- ==== Sys2Proof/Machine/Cycle.lean ====
section
/-! DEFINITION. The fetch-decode-execute-timer cycle (30_encoding R54, R55) and the placing of an opcode where
the next fetch reads it. -/

namespace Sys2Proof.Machine

/-- `Fetch(pc)` (R54): two bytes, the first one high; none when pc + 1 is above 0xFFF. -/
def State.fetch (s : State) : Option Word :=
  if s.pc.toNat + 1 > 0xFFF then none
  else some (opcodeOf (s.mem.read s.pc.toNat) (s.mem.read (s.pc.toNat + 1)))

/-- "ins is FX0A and it stalled" (R55): a key wait with no key pressed. -/
def stalls (i : Instr) (s : State) : Bool :=
  match i with
  | .ldVxKey _ => s.lowestKey.isNone
  | _ => false

/-- What the step does after the instruction's rule took `s` to `t` (R55, R105, R110): no tick after a fault, and
none on a stalled key wait when `TICK_DURING_WAIT` is false. -/
def finish (tickDuringWait : Bool) (i : Instr) (s t : State) : State :=
  if t.halted.isSome then t
  else if tickDuringWait = false ∧ stalls i s = true then t
  else t.tick

/-- `finish` on the outcome of the instruction's rule. -/
def finishOutcome (tickDuringWait : Bool) (i : Instr) (s : State) :
    Host.Outcome State Fault Refusal → Host.Outcome State Fault Refusal
  | .next t => .next (finish tickDuringWait i s t)
  | .fault r => .fault r
  | .refused r => .refused r

/-- Decode and execute a fetched opcode, then tick (R55). -/
def runOpcode (op : Word) (s : State) : Host.Outcome State Fault Refusal :=
  match decode op with
  | .error _ => raise s (.unknownOpcode op s.pc)
  | .ok i => finishOutcome Config.params.tickDuringWait i s (exec i s)

/-- `Step()` at the default parameters (R55). A halted core has no step (R105). -/
def cycle (s : State) : Host.Outcome State Fault Refusal :=
  match s.halted with
  | some r => .fault (.halted r)
  | none =>
    match s.fetch with
    | none => raise s (.outOfBoundsFetch s.pc)
    | some op => runOpcode op s

/-- `s` with the opcode `op` in memory at `a`, high byte first (20_memory R36). -/
def State.placeOpcode (s : State) (a : Nat) (op : Word) : State :=
  { s with mem := s.mem.writeBytes a [highByte op, lowByte op] }

/-- Where the next fetch of `s` can read an opcode: its pc, or the reset entry when no fetch at pc is in bounds. -/
def State.fetchPlace (s : State) : Word := if s.pc.toNat + 1 > 0xFFF then 0x200 else s.pc

/-- `s` running, with `op` where its next fetch reads. -/
def State.withFetchOpcode (s : State) (op : Word) : State :=
  { s.placeOpcode s.fetchPlace.toNat op with pc := s.fetchPlace, halted := none }

end Sys2Proof.Machine
end

