-- ==== Sys2Proof/Machine/Step.lean ====
section
/-! DEFINITION. The step of the machine, and the state the host uses to run one word of the opcode table. -/

namespace Sys2Proof.Machine

/-- One step (30_encoding R55), at the default parameters. -/
def step (s : State) : Host.Outcome State Fault Refusal := cycle s

/-- `s` with the table's word `w` stored where `step` fetches its next instruction (log entry 11). -/
def State.withFetchWord (s : State) (nbits w : Nat) : State := s.withFetchOpcode (tableOpcode nbits w)

end Sys2Proof.Machine
end

