-- ==== Sys2Proof/Machine/HostOps.lean ====
section
/-! DEFINITION. The host's operations between steps (60_exceptions R112 to R115; 70_reset_and_hazards R119 to
R122), the interface they make up, and what the host can observe (60_exceptions R112, R117). None of them is part of
`step`: the host acts only between steps (00_scope R2). -/

namespace Sys2Proof.Machine

/-- `Reset()` from any state (70_reset R120), the halted ones too. The model's own counter of free values goes
on: nothing says that reset repeats a random sequence (D14, log entry 4). -/
def hostReset (s : State) : State := { State.reset with free := s.free }

/-- What `LoadProgram` answers (70_reset R121). -/
inductive LoadResult where
  /-- the image was copied -/
  | loaded (s : State)
  /-- code 8 (60_exceptions R96): the image's length; no state changes -/
  | programTooLarge (length : Nat)
  deriving DecidableEq, Repr

/-- `LoadProgram(bytes)` (70_reset R121). -/
def hostLoad (bytes : List Byte) (s : State) : LoadResult :=
  if bytes.length > Config.maxProgram then .programTooLarge bytes.length
  else .loaded { s with mem := s.mem.writeBytes Config.programBase bytes }

/-- The boot sequence, reset and then load (70_reset R122). Before its first step a loaded result is the launch
state of the image. -/
def hostBoot (bytes : List Byte) (s : State) : LoadResult := hostLoad bytes (hostReset s)

/-- `KEY[k] <- b` (60_exceptions R113). -/
def hostSetKey (k : Fin 16) (b : Bool) (s : State) : State := { s with key := s.key.set k b }

/-- `KEY[k]` written through the byte-valued view: "any nonzero byte" is pressed (10_state R26; D15, log entry 21). -/
def hostSetKeyByte (k : Fin 16) (b : Byte) (s : State) : State := hostSetKey k (b != 0) s

/-- The framebuffer read (60_exceptions R114): the 2048 pixels, `FB[x, y]` at index x + 64·y (10_state R25). -/
def hostReadFramebuffer (s : State) : List Bool :=
  (List.range (Config.fbW * Config.fbH)).map (fun k => s.fb.pixel (k % Config.fbW) (k / Config.fbW))

/-- The redraw read and clear (60_exceptions R114): REDRAW as it was, and the state with it false. -/
def hostTakeRedraw (s : State) : Bool × State := (s.redraw, s.setRedraw false)

/-- The timer read (60_exceptions R115): DT and ST. -/
def hostReadTimers (s : State) : Byte × Byte := (s.dt, s.st)

/-- The step's result as the host gets it (60_exceptions R105, R112), read from the state the step answered:
none is ok, else the fault record. -/
def hostStepResult (s : State) : Option FaultRecord := s.halted

/-- The numeric code of a fault record (60_exceptions R96; D26, log entry 24). -/
def FaultRecord.code : FaultRecord → Nat
  | .unknownOpcode _ _ => 1
  | .outOfBoundsFetch _ => 2
  | .memoryBounds _ _ _ => 3
  | .stackOverflow _ _ => 4
  | .stackUnderflow _ _ => 5
  | .keyIndex _ _ _ => 6
  | .reservedWrite _ _ _ => 7

/-- A freshly constructed core (70_reset R119): every field zero, no font, pc 0. It is no launch state: the host
resets before it loads or steps (60_exceptions R112, D18). -/
def State.constructed : State :=
  { State.reset with mem := Memory.ofBytes (fun _ => 0), pc := 0, redraw := false }

/-! ## The interface as a whole (60_exceptions R112, R117) -/

/-- The operations of the host: "the set of operations below, and nothing else" (60_exceptions R112). There is no
breakpoint, watchpoint, trace or counter among them: `step` is the only single-step (60_exceptions R117). -/
inductive HostOp where
  /-- `reset` (70_reset R120) -/
  | reset
  /-- `loadProgram(bytes)` (70_reset R121) -/
  | load (bytes : List Byte)
  /-- `step` (30_encoding R55) -/
  | step
  /-- the key write (60_exceptions R113) -/
  | setKey (k : Fin 16) (b : Bool)
  /-- the key write through the byte-valued view (10_state R26) -/
  | setKeyByte (k : Fin 16) (b : Byte)
  /-- the framebuffer read (60_exceptions R114) -/
  | readFramebuffer
  /-- the redraw read and clear (60_exceptions R114) -/
  | takeRedraw
  /-- the timer read (60_exceptions R115) -/
  | readTimers
  deriving DecidableEq, Repr

/-- What an operation answers to the host: all that the host ever gets from the core (60_exceptions R112). -/
inductive HostAnswer where
  /-- reset, a load that succeeded, a key write: no information -/
  | done
  /-- a load that failed, with the image's length (60_exceptions R96, code 8) -/
  | programTooLarge (length : Nat)
  /-- a step: none is ok, else the fault record (60_exceptions R105) -/
  | stepped (result : Option FaultRecord)
  /-- the 2048 pixels -/
  | pixels (fb : List Bool)
  /-- REDRAW as it was -/
  | redraw (flag : Bool)
  /-- DT and ST -/
  | timers (dt st : Byte)
  deriving DecidableEq, Repr

/-- What a load answers, and the state after it: "no state changes" when it fails (70_reset R121). -/
def LoadResult.answer (s : State) : LoadResult → HostAnswer × State
  | .loaded t => (.done, t)
  | .programTooLarge n => (.programTooLarge n, s)

/-- The host's `step`: one step of the machine and its result (60_exceptions R112, R117). None when the core has no
step, which is when the host must not ask for one (60_exceptions R105). -/
def hostStep (s : State) : Option (HostAnswer × State) :=
  match step s with
  | .next t => some (.stepped (hostStepResult t), t)
  | .fault _ => none
  | .refused _ => none

/-- One operation of the host: its answer and the state after it (60_exceptions R112). -/
def hostDo (op : HostOp) (s : State) : Option (HostAnswer × State) :=
  match op with
  | .reset => some (.done, hostReset s)
  | .load bytes => some ((hostLoad bytes s).answer s)
  | .step => hostStep s
  | .setKey k b => some (.done, hostSetKey k b s)
  | .setKeyByte k b => some (.done, hostSetKeyByte k b s)
  | .readFramebuffer => some (.pixels (hostReadFramebuffer s), s)
  | .takeRedraw => some (.redraw (hostTakeRedraw s).1, (hostTakeRedraw s).2)
  | .readTimers => some (.timers (hostReadTimers s).1 (hostReadTimers s).2, s)

/-- The surfaces of the state that the host can observe between steps (60_exceptions R112, R114, R115, R117). -/
structure HostView where
  pixels : List Bool
  redraw : Bool
  dt : Byte
  st : Byte
  deriving DecidableEq, Repr

/-- What the host can observe of `s` between steps. -/
def hostView (s : State) : HostView :=
  { pixels := hostReadFramebuffer s, redraw := s.redraw, dt := s.dt, st := s.st }

end Sys2Proof.Machine
end

