-- ==== Sys2Proof/Machine/Runs.lean ====
section
/-! DEFINITION. Runs and how they end (70_reset R122, R123). The core has no halt instruction: "A run ends only when a
step faults", or when the host stops calling `step`. When it stops is a function of the launch: at a given address,
or after a number of steps (R123, D28; log entry 25). -/

namespace Sys2Proof.Machine

/-- How a run ends (70_reset R123). -/
inductive RunEnd where
  /-- a step faulted (60_exceptions R105) -/
  | faulted (r : FaultRecord)
  /-- pc reached the launch's end address, whose instruction is not executed -/
  | reached
  /-- the host stopped calling `step`, its steps being spent (60_exceptions R118) -/
  | hostStopped
  deriving DecidableEq, Repr

/-- What a run is launched with (70_reset R122, R123): the image, the address at which it counts as ended if there is
one, and how many steps the host calls at most. -/
structure Launch where
  image  : List Byte
  endPc  : Option Word
  bound  : Nat
  deriving DecidableEq, Repr

/-- Why a run ends at `s` whatever steps are left: the core is halted, or pc is at the end address. -/
def endsAt (endPc : Option Word) (s : State) : Option RunEnd :=
  match s.halted with
  | some r => some (.faulted r)
  | none => if endPc = some s.pc then some .reached else none

/-- At most `n` steps from `s`, and how the run ended, in which state (70_reset R123). -/
def run (endPc : Option Word) : Nat → State → RunEnd × State
  | 0, s => ((endsAt endPc s).getD .hostStopped, s)
  | n + 1, s =>
    match endsAt endPc s with
    | some e => (e, s)
    | none =>
      match hostStep s with
      | some (_, t) => run endPc n t
      | none => (.hostStopped, s)

/-- The run of a launch, its end a function of the launch: the boot sequence on any core `s`, then the steps
(70_reset R122, R123). None when the image is too large to load. -/
def runLaunch (l : Launch) (s : State) : Option (RunEnd × State) :=
  match hostBoot l.image s with
  | .loaded t => some (run l.endPc l.bound t)
  | .programTooLarge _ => none

/-- The host's operations one after another, steps among them, with what each answered: how a run goes while the host
writes keys and looks (60_exceptions R112, R113). None when the host asks for a step the core does not have. -/
def hostSession : List HostOp → State → Option (List HostAnswer × State)
  | [], s => some ([], s)
  | op :: ops, s =>
    match hostDo op s with
    | none => none
    | some (answer, t) => (hostSession ops t).map (fun p => (answer :: p.1, p.2))

end Sys2Proof.Machine
end

