-- ==== Sys2Proof/Machine/Variants.lean ====
section
/-! DEFINITION. The machine at any values of the named parameters (00_scope R6: "A model may take any of these as
an argument"). At `Config.params` it is the machine of Dispatch.lean and Cycle.lean. -/

namespace Sys2Proof.Machine

/-- `exec` at the parameters `p`: five instructions' rules name one, and every other is as in `exec`. -/
def execWith (p : Params) (i : Instr) (s : State) : Host.Outcome State Fault Refusal :=
  match i with
  | .shr x y => shiftRight p.shiftSource x y s
  | .shl x y => shiftLeft p.shiftSource x y s
  | .drw x y n => draw p.drawEdge x y n s
  | .ldBcd x => storeBcd p.reservedWrite x s
  | .storeRegs x => dump p.reservedWrite x s
  | other => exec other s

/-- The record with the opcode that was fetched: without `DECODE_STRICT` several opcodes decode to one
instruction, and the record holds the one that faulted (60_exceptions R97). -/
def FaultRecord.withOpcode (op : Word) : FaultRecord → FaultRecord
  | .unknownOpcode _ pc => .unknownOpcode op pc
  | .outOfBoundsFetch pc => .outOfBoundsFetch pc
  | .memoryBounds a _ pc => .memoryBounds a op pc
  | .stackOverflow _ pc => .stackOverflow op pc
  | .stackUnderflow _ pc => .stackUnderflow op pc
  | .keyIndex v _ pc => .keyIndex v op pc
  | .reservedWrite a _ pc => .reservedWrite a op pc

/-- `s` with the fetched opcode in its fault record, if it has one. -/
def State.recordOpcode (s : State) (op : Word) : State :=
  { s with halted := s.halted.map (FaultRecord.withOpcode op) }

/-- The instruction's rule, with the fetched opcode in the record of a fault it raised. -/
def execOpcodeWith (p : Params) (op : Word) (i : Instr) (s : State) : Host.Outcome State Fault Refusal :=
  match execWith p i s with
  | .next t => .next (t.recordOpcode op)
  | .fault r => .fault r
  | .refused r => .refused r

/-- `runOpcode` at the parameters `p` (30_encoding R55). -/
def runOpcodeWith (p : Params) (op : Word) (s : State) : Host.Outcome State Fault Refusal :=
  match decodeWith p.decodeStrict op with
  | .error _ => raise s (.unknownOpcode op s.pc)
  | .ok i => finishOutcome p.tickDuringWait i s (execOpcodeWith p op i s)

/-- `Step()` at the parameters `p` (30_encoding R55). -/
def cycleWith (p : Params) (s : State) : Host.Outcome State Fault Refusal :=
  match s.halted with
  | some r => .fault (.halted r)
  | none =>
    match s.fetch with
    | none => raise s (.outOfBoundsFetch s.pc)
    | some op => runOpcodeWith p op s

end Sys2Proof.Machine
end

