-- ==== Sys2Proof/Safety.lean ====
section
/-! DEFINITION. The terms the statements use: an instruction's opcode as a number, what two states have in common
(frames), which registers an instruction may write, the parts of a fault record, sprite bits, and the
invariants of the core. -/

namespace Sys2Proof.Machine

/-! ## Encodings as numbers -/

/-- The opcode of `i` is the number `w`, and `w` decodes to `i`. -/
def Encodes (i : Instr) (w : Nat) : Prop := (encode i).toNat = w ∧ decode (BitVec.ofNat 16 w) = .ok i

/-! ## Frames: what `t` has as `s` had it -/

/-- The core runs: `HALTED` is none (10_state R30). -/
abbrev Running (s : State) : Prop := s.halted = none

/-- Every byte of memory reads as before. -/
def SameMemory (s t : State) : Prop := ∀ a, t.mem.read a = s.mem.read a

/-- Every byte outside the `n` bytes from `lo` up reads as before. -/
def SameMemoryOutside (lo n : Nat) (s t : State) : Prop :=
  ∀ a, ¬(lo ≤ a ∧ a < lo + n) → t.mem.read a = s.mem.read a

/-- Every general register but the ones listed is as before. -/
def SameRegsBut (xs : List Reg) (s t : State) : Prop := ∀ k, k ∉ xs → t.getV k = s.getV k

/-- The call stack, its entries and SP, is as before. -/
def SameStack (s t : State) : Prop := t.stack = s.stack ∧ t.sp = s.sp

/-- DT and ST are as before. -/
def SameTimers (s t : State) : Prop := t.dt = s.dt ∧ t.st = s.st

/-- The framebuffer and REDRAW are as before. -/
def SameDisplay (s t : State) : Prop := t.fb = s.fb ∧ t.redraw = s.redraw

/-- The key state and HALTED are as before. -/
def SameKeysHalt (s t : State) : Prop := t.key = s.key ∧ t.halted = s.halted

/-- All but pc, the call stack and the listed registers is as before. -/
def OnlyRegsStack (xs : List Reg) (s t : State) : Prop :=
  SameRegsBut xs s t ∧ t.i = s.i ∧ SameTimers s t ∧ SameDisplay s t ∧ SameKeysHalt s t ∧ SameMemory s t

/-- All but pc and the listed registers is as before: the frame of a register instruction. -/
def OnlyRegs (xs : List Reg) (s t : State) : Prop := OnlyRegsStack xs s t ∧ SameStack s t

/-- All but pc, I, memory and the listed registers is as before: the frame of the instructions that write I or
memory, which state what they do to both. -/
def OnlyRegsIndexMemory (xs : List Reg) (s t : State) : Prop :=
  SameRegsBut xs s t ∧ SameStack s t ∧ SameTimers s t ∧ SameDisplay s t ∧ SameKeysHalt s t

/-- All but pc, the display and the listed registers is as before: the frame of CLS and DRW. -/
def OnlyRegsDisplay (xs : List Reg) (s t : State) : Prop :=
  SameRegsBut xs s t ∧ t.i = s.i ∧ SameStack s t ∧ SameTimers s t ∧ SameKeysHalt s t ∧ SameMemory s t

/-- All but pc and the timers is as before: the frame of FX15 and FX18. -/
def OnlyTimers (s t : State) : Prop :=
  SameRegsBut [] s t ∧ t.i = s.i ∧ SameStack s t ∧ SameDisplay s t ∧ SameKeysHalt s t ∧ SameMemory s t

/-! ## What an instruction may write -/

/-- The general registers an instruction may write: its X, VF where the flag logic writes it, V0 to Vx for FX65
(10_state R13, R16). -/
def writtenRegs : Instr → List Reg
  | .ldImm x _ | .addImm x _ | .rnd x _ | .ldVxDt x | .ldVxKey x => [x]
  | .ldReg x _ | .orReg x _ | .andReg x _ | .xorReg x _ => [x]
  | .addReg x _ | .subReg x _ | .subnReg x _ | .shr x _ | .shl x _ => [x, Reg.vf]
  | .drw _ _ _ | .addI _ => [Reg.vf]
  | .loadRegs x => (List.finRange 16).filter (fun k => k ≤ x)
  | .sys _ | .cls | .ret | .jp _ | .call _ | .seImm _ _ | .sneImm _ _ | .seReg _ _ | .sneReg _ _ => []
  | .ldI _ | .jpV0 _ | .skp _ | .sknp _ | .ldDtVx _ | .ldStVx _ | .ldFont _ | .ldBcd _ | .storeRegs _ => []

/-- The instructions that write I: ANNN, FX1E, FX29, FX55, FX65 (10_state R20). -/
def writesIndex : Instr → Bool
  | .ldI _ | .addI _ | .ldFont _ | .storeRegs _ | .loadRegs _ => true
  | .sys _ | .cls | .ret | .jp _ | .call _ | .seImm _ _ | .sneImm _ _ | .seReg _ _ | .sneReg _ _ => false
  | .ldImm _ _ | .addImm _ _ | .ldReg _ _ | .orReg _ _ | .andReg _ _ | .xorReg _ _ | .addReg _ _ => false
  | .subReg _ _ | .shr _ _ | .subnReg _ _ | .shl _ _ | .jpV0 _ | .rnd _ _ | .drw _ _ _ => false
  | .skp _ | .sknp _ | .ldVxDt _ | .ldVxKey _ | .ldDtVx _ | .ldStVx _ | .ldBcd _ => false

/-- The bytes an instruction stores, as an address and a length: FX33 and FX55 alone (20_memory R33). -/
def storedBytes (s : State) : Instr → Nat × Nat
  | .ldBcd _ => (s.dataAddr, 3)
  | .storeRegs x => (s.dataAddr, x.val + 1)
  | .sys _ | .cls | .ret | .jp _ | .call _ | .seImm _ _ | .sneImm _ _ | .seReg _ _ | .sneReg _ _ => (0, 0)
  | .ldImm _ _ | .addImm _ _ | .ldReg _ _ | .orReg _ _ | .andReg _ _ | .xorReg _ _ | .addReg _ _ => (0, 0)
  | .subReg _ _ | .shr _ _ | .subnReg _ _ | .shl _ _ | .jpV0 _ | .rnd _ _ | .drw _ _ _ => (0, 0)
  | .skp _ | .sknp _ | .ldVxDt _ | .ldVxKey _ | .ldDtVx _ | .ldStVx _ => (0, 0)
  | .ldI _ | .addI _ | .ldFont _ | .loadRegs _ => (0, 0)

/-! ## Fault records -/

/-- The pc a record holds (60_exceptions R97). -/
def FaultRecord.pcOf : FaultRecord → Word
  | .unknownOpcode _ pc | .outOfBoundsFetch pc | .memoryBounds _ _ pc | .stackOverflow _ pc => pc
  | .stackUnderflow _ pc | .keyIndex _ _ pc | .reservedWrite _ _ pc => pc

/-- The opcode a record holds, none for code 2 (60_exceptions R97). -/
def FaultRecord.opOf : FaultRecord → Option Word
  | .outOfBoundsFetch _ => none
  | .unknownOpcode op _ | .memoryBounds _ op _ | .stackOverflow op _ => some op
  | .stackUnderflow op _ | .keyIndex _ op _ | .reservedWrite _ op _ => some op

/-- The fault codes an instruction's rule can raise (60_exceptions R104). -/
def faultCodes : Instr → List Nat
  | .sys _ => [1]
  | .call _ => [4]
  | .ret => [5]
  | .skp _ | .sknp _ => [6]
  | .drw _ _ _ | .loadRegs _ => [3]
  | .ldBcd _ | .storeRegs _ => [3, 7]
  | .cls | .jp _ | .seImm _ _ | .sneImm _ _ | .seReg _ _ | .sneReg _ _ | .ldI _ | .jpV0 _ => []
  | .ldImm _ _ | .addImm _ _ | .ldReg _ _ | .orReg _ _ | .andReg _ _ | .xorReg _ _ | .addReg _ _ => []
  | .subReg _ _ | .shr _ _ | .subnReg _ _ | .shl _ _ | .rnd _ _ => []
  | .ldVxDt _ | .ldVxKey _ | .ldDtVx _ | .ldStVx _ | .addI _ | .ldFont _ => []

/-! ## Sprites -/

/-- The sprite of `n` rows at I, drawn with its corner at column `x0` and row `y0`, has a set bit at the place
(px, py), clipped and not wrapped (42_display R82). -/
def spriteSets (s : State) (x0 y0 n px py : Nat) : Prop :=
  x0 ≤ px ∧ px < x0 + 8 ∧ y0 ≤ py ∧ py < y0 + n ∧
    (s.mem.read (s.dataAddr + (py - y0))).getLsbD (7 - (px - x0)) = true

/-! ## Invariants -/

/-- The memory is in its canonical form. -/
abbrev MemoryCanonical (s : State) : Prop := s.mem.wf

/-- While the core runs, the reserved range reads as reset left it: the font is "never mutated afterward"
(20_memory R35, R40). -/
def ReservedIntact (s : State) : Prop :=
  Running s → ∀ a, a ≤ Config.reservedEnd → s.mem.read a = Memory.unlisted a

/-- While the core runs, every stack entry in use is a fetched pc, and pc is at most 0x10FE (10_state R19,
40_control_flow R60). -/
def ReturnsBounded (s : State) : Prop :=
  Running s → s.pc.toNat ≤ 0x10FE ∧
    ∀ k : Fin 16, k.val < s.sp.val → (s.stack.get k).toNat ≤ 0xFFE

end Sys2Proof.Machine
end

