-- ==== Sys2Proof/Certificates/Slice0/Obligations.lean ====
section
/-! DEFINITION. The statements for the provers. OBLIGATIONS.json lists them, with the rule or section of spec/
each formalises. -/

open Sys2Proof Sys2Proof.Machine

/-! ## Encoding -/

/-- Decode and encode agree on every well-formed instruction, every operand at every value (30_encoding R48, R50,
R51; log entry 12). -/
def Obligations.EncodeThenDecode : Prop :=
  ∀ i : Instr, WellFormed i = true → decode (encode i) = .ok i

/-- Under DECODE_STRICT an opcode has one meaning: what it decodes to is well-formed and encodes to it
(30_encoding R51; log entries 9 and 12). -/
def Obligations.DecodeThenEncode : Prop :=
  ∀ (op : Word) (i : Instr), decode op = .ok i → WellFormed i = true ∧ encode i = op

/-- The illegal opcodes of 30_encoding R52, category by category, under the default DECODE_STRICT (log entry 9):
the ones of categories 5, 8, 9, E and F, which the decoder refuses, and the ones of category 0, which it reads as SYS.
That it reads those as an instruction, whose meaning then raises the same fault, is the model's choice (log entry
10). -/
def Obligations.IllegalOpcodesAreRefusedOrSys : Prop :=
  ∀ op : Word,
    (decode op = .error (.unknownOpcode op) ↔
      (op.toNat / 4096 = 0x5 ∧ op.toNat % 16 ≠ 0) ∨
      (op.toNat / 4096 = 0x8 ∧ op.toNat % 16 ∈ [0x8, 0x9, 0xA, 0xB, 0xC, 0xD, 0xF]) ∨
      (op.toNat / 4096 = 0x9 ∧ op.toNat % 16 ≠ 0) ∨
      (op.toNat / 4096 = 0xE ∧ op.toNat % 256 ∉ [0x9E, 0xA1]) ∨
      (op.toNat / 4096 = 0xF ∧
        op.toNat % 256 ∉ [0x07, 0x0A, 0x15, 0x18, 0x1E, 0x29, 0x33, 0x55, 0x65])) ∧
    ((∃ nnn, decode op = .ok (.sys nnn)) ↔ op.toNat < 0x1000 ∧ op.toNat ≠ 0x00E0 ∧ op.toNat ≠ 0x00EE)

/-- Opcodes written out from the patterns of 30_encoding R50 decode to the instructions they stand for (log entry
12). -/
def Obligations.SampleOpcodesDecode : Prop :=
  decode 0x00E0 = .ok .cls ∧ decode 0x00EE = .ok .ret ∧ decode 0x2ABC = .ok (.call 0xABC) ∧
  decode 0x3C7E = .ok (.seImm 0xC 0x7E) ∧ decode 0x8AB5 = .ok (.subReg 0xA 0xB) ∧
  decode 0xD12F = .ok (.drw 0x1 0x2 0xF) ∧ decode 0xE39E = .ok (.skp 0x3) ∧ decode 0xF40A = .ok (.ldVxKey 0x4) ∧
  decode 0xF533 = .ok (.ldBcd 0x5) ∧ decode 0xA123 = .ok (.ldI 0x123)

/-- With DECODE_STRICT false exactly three rows of 30_encoding R51 change: 0xE0 and 0xEE in category 0 whatever
nibble 2 is, and categories 5 and 9 whatever nibble 0 is (log entry 9). -/
def Obligations.LenientDecodeRows : Prop :=
  ∀ op : Word,
    (op.toNat / 4096 = 0x0 → op.toNat % 256 = 0xE0 → decodeWith false op = .ok .cls) ∧
    (op.toNat / 4096 = 0x0 → op.toNat % 256 = 0xEE → decodeWith false op = .ok .ret) ∧
    (op.toNat / 4096 = 0x5 → decodeWith false op = .ok (.seReg (opX op) (opY op))) ∧
    (op.toNat / 4096 = 0x9 → decodeWith false op = .ok (.sneReg (opX op) (opY op))) ∧
    (¬(op.toNat / 4096 = 0x0 ∧ op.toNat % 256 ∈ [0xE0, 0xEE]) → op.toNat / 4096 ≠ 0x5 → op.toNat / 4096 ≠ 0x9 →
      decodeWith false op = decodeWith true op)

/-! ## The step -/

/-- The fetch composes the bytes at pc and pc + 1, the first one high; when pc + 1 is above 0xFFF it raises
OutOfBoundsFetchError with pc (30_encoding R54, 60_exceptions R99, R105; that the fault is a next state whose every
other field is free is log entries 1 and 2). -/
def Obligations.FetchIsBigEndianOrFaults : Prop :=
  ∀ s : State,
    (s.pc.toNat + 1 ≤ 0xFFF → ∃ op, s.fetch = some op ∧
      op.toNat = (s.mem.read s.pc.toNat).toNat * 256 + (s.mem.read (s.pc.toNat + 1)).toNat) ∧
    (s.pc.toNat + 1 > 0xFFF → Running s → step s = .next (s.afterFault (.outOfBoundsFetch s.pc)))

/-- A step runs the decoded instruction and then the timer tick, which a fault leaves out (30_encoding R55,
60_exceptions R105, R110; the tick on a stalled FX0A step is log entry 7). -/
def Obligations.StepRunsDecodedInstruction : Prop :=
  ∀ (s : State) (op : Word) (i : Instr), Running s → s.fetch = some op → decode op = .ok i →
    step s = match exec i s with
      | .next t => .next (if t.halted.isSome then t else t.tick)
      | .fault r => .fault r
      | .refused r => .refused r

/-- An opcode with no defined instruction, and every SYS, raises UnknownOpcodeError with op and pc
(60_exceptions R98; that SYS is one is the spec's decision D9, log entry 10; the fault's
entry is log entry 1). -/
def Obligations.UndefinedOpcodeRaisesUnknownOpcode : Prop :=
  ∀ (s : State) (op : Word), Running s → s.fetch = some op →
    ((∃ e, decode op = .error e) ∨ ∃ nnn, decode op = .ok (.sys nnn)) →
    step s = .next (s.afterFault (.unknownOpcode op s.pc))

/-- A halted core has no step (60_exceptions R105, U18 of 93; log entry 1). -/
def Obligations.HaltedCoreHasNoStep : Prop :=
  ∀ (s : State) (r : FaultRecord), s.halted = some r → step s = .fault (.halted r)

/-- A running core always has a step: it answers a next state, whatever its memory holds (00_scope R10, 60_exceptions
R105; log entry 1). -/
def Obligations.RunningCoreAlwaysSteps : Prop :=
  ∀ s : State, Running s → ∃ t, step s = .next t

/-- Fault entry: when a step halts the core the state is the one with the record in HALTED and every other
field a free value, with no tick (60_exceptions R105; log entries 1 and 2). -/
def Obligations.FaultEntryIsHalt : Prop :=
  ∀ (s t : State) (r : FaultRecord), step s = .next t → t.halted = some r → t = s.afterFault r

/-- Faults are precise: the record holds the pc of the opcode that faulted, and that opcode (60_exceptions R97,
R105). -/
def Obligations.FaultRecordIsPrecise : Prop :=
  ∀ (s t : State) (r : FaultRecord), step s = .next t → t.halted = some r →
    r.pcOf = s.pc ∧ r.opOf = s.fetch

/-- The faults each instruction's rule can raise (60_exceptions R104; the spec's decisions D4 to D8, D17 and D26, log
entries 8, 14, 16, 19 and 24). -/
def Obligations.FaultsOfEachInstruction : Prop :=
  ∀ (i : Instr) (s t : State) (r : FaultRecord), Running s → exec i s = .next t → t.halted = some r →
    r.code ∈ faultCodes i

/-- The tick takes one from each timer that is above 0 and changes nothing else; and over a whole step that raises
no fault each timer goes down by one, unless the step is that of FX15 (DT) or FX18 (ST) (60_exceptions R110;
log entry 7 for the stalled FX0A). -/
def Obligations.TimersTickOncePerStep : Prop :=
  (∀ s : State, s.tick.dt.toNat = s.dt.toNat - 1 ∧ s.tick.st.toNat = s.st.toNat - 1 ∧
    s.tick.pc = s.pc ∧ OnlyTimers s s.tick) ∧
  ∀ (s t : State) (op : Word) (i : Instr), s.fetch = some op → decode op = .ok i → step s = .next t → Running t →
    ((∀ x, i ≠ .ldDtVx x) → t.dt.toNat = s.dt.toNat - 1) ∧
    ((∀ x, i ≠ .ldStVx x) → t.st.toNat = s.st.toNat - 1)

/-! ## Control flow -/

/-- SYS raises UnknownOpcodeError, always (40_control_flow R59; log entries 1 and 10). -/
def Obligations.SysRaisesUnknownOpcode : Prop :=
  ∀ (nnn : Addr12) (s : State),
    (WellFormed (.sys nnn) = true → Encodes (.sys nnn) nnn.toNat) ∧
    exec (.sys nnn) s = .next (s.afterFault (.unknownOpcode (BitVec.ofNat 16 nnn.toNat) s.pc))

/-- RET: the popped entry plus 2 is the pc; with SP = 0, StackUnderflowError (40_control_flow R60; the
fault is the spec's decision D5, log entry 19, its entry log entry 1). -/
def Obligations.RetReturnsAfterCall : Prop :=
  ∀ s : State, Encodes .ret 0x00EE ∧
    (∀ k : Fin 16, k.val + 1 = s.sp.val → ∃ t, exec .ret s = .next t ∧
      t.pc.toNat = ((s.stack.get k).toNat + 2) % 65536 ∧ t.sp.val = k.val ∧ t.stack = s.stack ∧
      OnlyRegsStack [] s t) ∧
    (s.sp.val = 0 → exec .ret s = .next (s.afterFault (.stackUnderflow 0x00EE s.pc)))

/-- JP NNN: the pc is NNN (40_control_flow R61). -/
def Obligations.JpSetsPc : Prop :=
  ∀ (nnn : Addr12) (s : State), Encodes (.jp nnn) (0x1000 + nnn.toNat) ∧
    ∃ t, exec (.jp nnn) s = .next t ∧ t.pc.toNat = nnn.toNat ∧ OnlyRegs [] s t

/-- CALL NNN: pushes its own address, then the pc is NNN; with SP = 16, StackOverflowError (40_control_flow R62;
the fault is the spec's decision D4, log entry 19, its entry log entry 1). -/
def Obligations.CallPushesOwnAddress : Prop :=
  ∀ (nnn : Addr12) (s : State), Encodes (.call nnn) (0x2000 + nnn.toNat) ∧
    (∀ k : Fin 16, k.val = s.sp.val → ∃ t, exec (.call nnn) s = .next t ∧ t.pc.toNat = nnn.toNat ∧
      t.stack.get k = s.pc ∧ (∀ j : Fin 16, j ≠ k → t.stack.get j = s.stack.get j) ∧
      t.sp.val = s.sp.val + 1 ∧ OnlyRegsStack [] s t) ∧
    (s.sp.val = 16 →
      exec (.call nnn) s = .next (s.afterFault (.stackOverflow (BitVec.ofNat 16 (0x2000 + nnn.toNat)) s.pc)))

/-- SE Vx, NN and SNE Vx, NN (40_control_flow R63, R64). -/
def Obligations.SkipOnImmediate : Prop :=
  ∀ (x : Reg) (nn : Byte) (s : State),
    Encodes (.seImm x nn) (0x3000 + x.val * 256 + nn.toNat) ∧
    Encodes (.sneImm x nn) (0x4000 + x.val * 256 + nn.toNat) ∧
    (∃ t, exec (.seImm x nn) s = .next t ∧
      t.pc.toNat = (s.pc.toNat + if s.getV x = nn then 4 else 2) % 65536 ∧ OnlyRegs [] s t) ∧
    ∃ t, exec (.sneImm x nn) s = .next t ∧
      t.pc.toNat = (s.pc.toNat + if s.getV x = nn then 2 else 4) % 65536 ∧ OnlyRegs [] s t

/-- SE Vx, Vy and SNE Vx, Vy (40_control_flow R65, R66; their mask under DECODE_STRICT is log entry 9). -/
def Obligations.SkipOnRegister : Prop :=
  ∀ (x y : Reg) (s : State),
    Encodes (.seReg x y) (0x5000 + x.val * 256 + y.val * 16) ∧
    Encodes (.sneReg x y) (0x9000 + x.val * 256 + y.val * 16) ∧
    (∃ t, exec (.seReg x y) s = .next t ∧
      t.pc.toNat = (s.pc.toNat + if s.getV x = s.getV y then 4 else 2) % 65536 ∧ OnlyRegs [] s t) ∧
    ∃ t, exec (.sneReg x y) s = .next t ∧
      t.pc.toNat = (s.pc.toNat + if s.getV x = s.getV y then 2 else 4) % 65536 ∧ OnlyRegs [] s t

/-- JP V0, NNN: the sum is not masked to 12 bits (40_control_flow R67; log entry 15). -/
def Obligations.JpV0AddsOffset : Prop :=
  ∀ (nnn : Addr12) (s : State), Encodes (.jpV0 nnn) (0xB000 + nnn.toNat) ∧
    ∃ t, exec (.jpV0 nnn) s = .next t ∧ t.pc.toNat = nnn.toNat + (s.getV 0).toNat ∧ OnlyRegs [] s t

/-- CALL and then RET, whatever happened between to all but the stack and SP: the pc is the one after the CALL, and
SP and the entries below it are as before the CALL (10_state R22, R23; 40_control_flow R60, R62). -/
def Obligations.CallThenRetResumes : Prop :=
  ∀ (nnn : Addr12) (s t u : State), Running t → exec (.call nnn) s = .next t → u.stack = t.stack → u.sp = t.sp →
    ∃ w, exec .ret u = .next w ∧ w.pc.toNat = (s.pc.toNat + 2) % 65536 ∧ w.sp = s.sp ∧
      ∀ j : Fin 16, j.val < s.sp.val → w.stack.get j = s.stack.get j

/-! ## Register arithmetic and logic -/

/-- LD Vx, NN and LD Vx, Vy: an ordinary write, of VF too, with no flag effect (41_alu R69, R71). -/
def Obligations.LoadsSetTheRegister : Prop :=
  ∀ (x y : Reg) (nn : Byte) (s : State),
    Encodes (.ldImm x nn) (0x6000 + x.val * 256 + nn.toNat) ∧
    Encodes (.ldReg x y) (0x8000 + x.val * 256 + y.val * 16) ∧
    (∃ t, exec (.ldImm x nn) s = .next t ∧ t.getV x = nn ∧ t.pc.toNat = (s.pc.toNat + 2) % 65536 ∧
      OnlyRegs [x] s t) ∧
    ∃ t, exec (.ldReg x y) s = .next t ∧ t.getV x = s.getV y ∧ t.pc.toNat = (s.pc.toNat + 2) % 65536 ∧
      OnlyRegs [x] s t

/-- ADD Vx, NN: wraps, no carry flag (41_alu R70). -/
def Obligations.AddImmWrapsWithoutFlag : Prop :=
  ∀ (x : Reg) (nn : Byte) (s : State), Encodes (.addImm x nn) (0x7000 + x.val * 256 + nn.toNat) ∧
    ∃ t, exec (.addImm x nn) s = .next t ∧ (t.getV x).toNat = ((s.getV x).toNat + nn.toNat) % 256 ∧
      t.pc.toNat = (s.pc.toNat + 2) % 65536 ∧ OnlyRegs [x] s t

/-- OR, AND and XOR Vx, Vy, bit by bit, with no flag effect (41_alu R72, R73, R74). -/
def Obligations.LogicIsBitwiseWithoutFlag : Prop :=
  ∀ (x y : Reg) (s : State),
    Encodes (.orReg x y) (0x8001 + x.val * 256 + y.val * 16) ∧
    Encodes (.andReg x y) (0x8002 + x.val * 256 + y.val * 16) ∧
    Encodes (.xorReg x y) (0x8003 + x.val * 256 + y.val * 16) ∧
    (∃ t, exec (.orReg x y) s = .next t ∧
      (∀ k, (t.getV x).getLsbD k = ((s.getV x).getLsbD k || (s.getV y).getLsbD k)) ∧
      t.pc.toNat = (s.pc.toNat + 2) % 65536 ∧ OnlyRegs [x] s t) ∧
    (∃ t, exec (.andReg x y) s = .next t ∧
      (∀ k, (t.getV x).getLsbD k = ((s.getV x).getLsbD k && (s.getV y).getLsbD k)) ∧
      t.pc.toNat = (s.pc.toNat + 2) % 65536 ∧ OnlyRegs [x] s t) ∧
    ∃ t, exec (.xorReg x y) s = .next t ∧
      (∀ k, (t.getV x).getLsbD k = ((s.getV x).getLsbD k ^^ (s.getV y).getLsbD k)) ∧
      t.pc.toNat = (s.pc.toNat + 2) % 65536 ∧ OnlyRegs [x] s t

/-- ADD Vx, Vy: the sum modulo 256, VF the carry of the exact sum, and with x = F VF is the carry (41_alu R75). -/
def Obligations.AddRegCarriesIntoVF : Prop :=
  ∀ (x y : Reg) (s : State), Encodes (.addReg x y) (0x8004 + x.val * 256 + y.val * 16) ∧
    ∃ t, exec (.addReg x y) s = .next t ∧
      (x ≠ Reg.vf → (t.getV x).toNat = ((s.getV x).toNat + (s.getV y).toNat) % 256) ∧
      (t.getV Reg.vf).toNat = (if (s.getV x).toNat + (s.getV y).toNat > 255 then 1 else 0) ∧
      t.pc.toNat = (s.pc.toNat + 2) % 65536 ∧ OnlyRegs [x, Reg.vf] s t

/-- SUB and SUBN: the difference modulo 256, VF 1 exactly when the minuend is at least the subtrahend (41_alu R76,
R78). -/
def Obligations.SubtractBorrowsIntoVF : Prop :=
  ∀ (x y : Reg) (s : State),
    Encodes (.subReg x y) (0x8005 + x.val * 256 + y.val * 16) ∧
    Encodes (.subnReg x y) (0x8007 + x.val * 256 + y.val * 16) ∧
    (∃ t, exec (.subReg x y) s = .next t ∧
      (x ≠ Reg.vf → ((t.getV x).toNat : Int) = (((s.getV x).toNat : Int) - (s.getV y).toNat) % 256) ∧
      (t.getV Reg.vf).toNat = (if (s.getV x).toNat ≥ (s.getV y).toNat then 1 else 0) ∧
      t.pc.toNat = (s.pc.toNat + 2) % 65536 ∧ OnlyRegs [x, Reg.vf] s t) ∧
    ∃ t, exec (.subnReg x y) s = .next t ∧
      (x ≠ Reg.vf → ((t.getV x).toNat : Int) = (((s.getV y).toNat : Int) - (s.getV x).toNat) % 256) ∧
      (t.getV Reg.vf).toNat = (if (s.getV y).toNat ≥ (s.getV x).toNat then 1 else 0) ∧
      t.pc.toNat = (s.pc.toNat + 2) % 65536 ∧ OnlyRegs [x, Reg.vf] s t

/-- SHR and SHL at the default SHIFT_SOURCE = X: by one bit, VF the bit shifted out, the field Y ignored (41_alu R77,
R79; log entry 5). -/
def Obligations.ShiftsMoveOneBitIntoVF : Prop :=
  ∀ (x y : Reg) (s : State),
    Encodes (.shr x y) (0x8006 + x.val * 256 + y.val * 16) ∧
    Encodes (.shl x y) (0x800E + x.val * 256 + y.val * 16) ∧
    (∃ t, exec (.shr x y) s = .next t ∧
      (x ≠ Reg.vf → (t.getV x).toNat = (s.getV x).toNat / 2) ∧
      (t.getV Reg.vf).toNat = (s.getV x).toNat % 2 ∧
      t.pc.toNat = (s.pc.toNat + 2) % 65536 ∧ OnlyRegs [x, Reg.vf] s t) ∧
    ∃ t, exec (.shl x y) s = .next t ∧
      (x ≠ Reg.vf → (t.getV x).toNat = (s.getV x).toNat * 2 % 256) ∧
      (t.getV Reg.vf).toNat = (s.getV x).toNat / 128 ∧
      t.pc.toNat = (s.pc.toNat + 2) % 65536 ∧ OnlyRegs [x, Reg.vf] s t

/-- RND Vx, NN: some byte of the draw, masked, for every value of the draw; bits outside NN are 0 (41_alu R80,
10_state R28; log entry 3). -/
def Obligations.RndMasksTheDraw : Prop :=
  ∀ (x : Reg) (nn : Byte) (s : State), Encodes (.rnd x nn) (0xC000 + x.val * 256 + nn.toNat) ∧
    ∃ t, exec (.rnd x nn) s = .next t ∧ t.getV x = Config.randomByte s.free &&& nn ∧ t.free = s.free + 1 ∧
      (∀ k, nn.getLsbD k = false → (t.getV x).getLsbD k = false) ∧
      t.pc.toNat = (s.pc.toNat + 2) % 65536 ∧ OnlyRegs [x] s t

/-! ## Display -/

/-- CLS: every pixel 0, REDRAW true, VF and all else unchanged (42_display R81). -/
def Obligations.ClsClearsTheScreen : Prop :=
  ∀ s : State, Encodes .cls 0x00E0 ∧
    ∃ t, exec .cls s = .next t ∧ (∀ px py, t.fb.pixel px py = false) ∧ t.redraw = true ∧
      t.pc.toNat = (s.pc.toNat + 2) % 65536 ∧ OnlyRegsDisplay [] s t

/-- DRW at the default DRAW_EDGE = clip: every pixel is XORed with the sprite's bit there, VF is 1 exactly when a
pixel went from set to unset, REDRAW is true; a sprite address above 0xFFF is MemoryBoundsError at the lowest such
one (42_display R82; log entries 1, 6, 12 and 14). -/
def Obligations.DrwXorsTheSprite : Prop :=
  ∀ (x y : Reg) (n : Nibble) (s : State),
    Encodes (.drw x y n) (0xD000 + x.val * 256 + y.val * 16 + n.toNat) ∧
    (n.toNat = 0 ∨ s.i.toNat + n.toNat ≤ 0x1000 → ∃ t, exec (.drw x y n) s = .next t ∧
      (∀ px py, px < 64 → py < 32 →
        (t.fb.pixel px py = true ↔
          ¬(s.fb.pixel px py = true ↔ spriteSets s (s.getV x).toNat (s.getV y).toNat n.toNat px py))) ∧
      ((∃ px py, px < 64 ∧ py < 32 ∧ s.fb.pixel px py = true ∧ t.fb.pixel px py = false) →
        (t.getV Reg.vf).toNat = 1) ∧
      ((∀ px py, px < 64 → py < 32 → s.fb.pixel px py = true → t.fb.pixel px py = true) →
        (t.getV Reg.vf).toNat = 0) ∧
      t.redraw = true ∧ t.pc.toNat = (s.pc.toNat + 2) % 65536 ∧ OnlyRegsDisplay [Reg.vf] s t) ∧
    (n.toNat ≠ 0 → s.i.toNat + n.toNat > 0x1000 →
      exec (.drw x y n) s = .next (s.afterFault (.memoryBounds (max s.i.toNat 0x1000)
        (BitVec.ofNat 16 (0xD000 + x.val * 256 + y.val * 16 + n.toNat)) s.pc)))

/-- Drawing the same sprite twice at the same place restores the framebuffer, and on an area that was blank the
second draw sets VF exactly when the sprite has a bit on the screen (95_test_vectors L1-5, for every sprite; the
registers x and y are not VF, which the first draw writes). It rests on the default DRAW_EDGE = clip (log entry 6) and
on the bit order of a sprite row (log entry 12). -/
def Obligations.DrawTwiceRestores : Prop :=
  ∀ (x y : Reg) (n : Nibble) (s t u : State), x ≠ Reg.vf → y ≠ Reg.vf → Running t → Running u →
    exec (.drw x y n) s = .next t → exec (.drw x y n) t = .next u →
    u.fb = s.fb ∧
    ((∀ px py, spriteSets s (s.getV x).toNat (s.getV y).toNat n.toNat px py → s.fb.pixel px py = false) →
      ((u.getV Reg.vf).toNat = 1 ↔
        ∃ px py, px < 64 ∧ py < 32 ∧ spriteSets s (s.getV x).toNat (s.getV y).toNat n.toNat px py))

/-! ## Keys and timers -/

/-- SKP and SKNP: skip on the key V[x] names; V[x] above 0xF is KeyIndexError (43_keys_timers R83, R84; log entries 1
and 16). -/
def Obligations.KeySkipsReadTheKey : Prop :=
  ∀ (x : Reg) (s : State),
    Encodes (.skp x) (0xE09E + x.val * 256) ∧ Encodes (.sknp x) (0xE0A1 + x.val * 256) ∧
    (∀ k : Fin 16, k.val = (s.getV x).toNat →
      (∃ t, exec (.skp x) s = .next t ∧
        t.pc.toNat = (s.pc.toNat + if s.key.get k = true then 4 else 2) % 65536 ∧ OnlyRegs [] s t) ∧
      ∃ t, exec (.sknp x) s = .next t ∧
        t.pc.toNat = (s.pc.toNat + if s.key.get k = true then 2 else 4) % 65536 ∧ OnlyRegs [] s t) ∧
    ((s.getV x).toNat > 0xF →
      exec (.skp x) s =
        .next (s.afterFault (.keyIndex (s.getV x) (BitVec.ofNat 16 (0xE09E + x.val * 256)) s.pc)) ∧
      exec (.sknp x) s =
        .next (s.afterFault (.keyIndex (s.getV x) (BitVec.ofNat 16 (0xE0A1 + x.val * 256)) s.pc)))

/-- LD Vx, DT: DT as it was, and after the tick of the step DT is one less (43_keys_timers R85). -/
def Obligations.LdVxDtReadsTheTimer : Prop :=
  ∀ (x : Reg) (s : State), Encodes (.ldVxDt x) (0xF007 + x.val * 256) ∧
    ∃ t, exec (.ldVxDt x) s = .next t ∧ t.getV x = s.dt ∧ t.pc.toNat = (s.pc.toNat + 2) % 65536 ∧
      OnlyRegs [x] s t ∧ t.tick.dt.toNat = s.dt.toNat - 1

/-- LD Vx, K: the lowest pressed key, or, with no key pressed, nothing at all, pc included (43_keys_timers R86; that
the timers tick on the stalled step is log entry 7). -/
def Obligations.KeyWaitTakesLowestKeyOrStalls : Prop :=
  ∀ (x : Reg) (s : State), Encodes (.ldVxKey x) (0xF00A + x.val * 256) ∧
    (∀ k : Fin 16, s.key.get k = true → (∀ j : Fin 16, j < k → s.key.get j = false) →
      ∃ t, exec (.ldVxKey x) s = .next t ∧ (t.getV x).toNat = k.val ∧
        t.pc.toNat = (s.pc.toNat + 2) % 65536 ∧ OnlyRegs [x] s t) ∧
    ((∀ k : Fin 16, s.key.get k = false) → exec (.ldVxKey x) s = .next s)

/-- LD DT, Vx and LD ST, Vx: the timer gets V[x], and one less after the tick of the same step (43_keys_timers R87,
R88). -/
def Obligations.SetTimersFromRegister : Prop :=
  ∀ (x : Reg) (s : State),
    Encodes (.ldDtVx x) (0xF015 + x.val * 256) ∧ Encodes (.ldStVx x) (0xF018 + x.val * 256) ∧
    (∃ t, exec (.ldDtVx x) s = .next t ∧ t.dt = s.getV x ∧ t.st = s.st ∧
      t.pc.toNat = (s.pc.toNat + 2) % 65536 ∧ OnlyTimers s t ∧ t.tick.dt.toNat = (s.getV x).toNat - 1) ∧
    ∃ t, exec (.ldStVx x) s = .next t ∧ t.st = s.getV x ∧ t.dt = s.dt ∧
      t.pc.toNat = (s.pc.toNat + 2) % 65536 ∧ OnlyTimers s t ∧ t.tick.st.toNat = (s.getV x).toNat - 1

/-! ## Index register and memory -/

/-- LD I, NNN (44_index_memory R90). -/
def Obligations.LdISetsIndex : Prop :=
  ∀ (nnn : Addr12) (s : State), Encodes (.ldI nnn) (0xA000 + nnn.toNat) ∧
    ∃ t, exec (.ldI nnn) s = .next t ∧ t.i.toNat = nnn.toNat ∧ t.pc.toNat = (s.pc.toNat + 2) % 65536 ∧
      SameMemory s t ∧ OnlyRegsIndexMemory [] s t

/-- ADD I, Vx: the sum modulo 65536, VF 1 exactly when the exact sum exceeds 0xFFF (44_index_memory R91; log entry
15). -/
def Obligations.AddIFlagsAbove0xFFF : Prop :=
  ∀ (x : Reg) (s : State), Encodes (.addI x) (0xF01E + x.val * 256) ∧
    ∃ t, exec (.addI x) s = .next t ∧ t.i.toNat = (s.i.toNat + (s.getV x).toNat) % 65536 ∧
      (t.getV Reg.vf).toNat = (if s.i.toNat + (s.getV x).toNat > 0xFFF then 1 else 0) ∧
      t.pc.toNat = (s.pc.toNat + 2) % 65536 ∧ SameMemory s t ∧ OnlyRegsIndexMemory [Reg.vf] s t

/-- LD F, Vx: five times the low nibble (44_index_memory R92). -/
def Obligations.LdFontPointsAtGlyph : Prop :=
  ∀ (x : Reg) (s : State), Encodes (.ldFont x) (0xF029 + x.val * 256) ∧
    ∃ t, exec (.ldFont x) s = .next t ∧ t.i.toNat = (s.getV x).toNat % 16 * 5 ∧
      t.pc.toNat = (s.pc.toNat + 2) % 65536 ∧ SameMemory s t ∧ OnlyRegsIndexMemory [] s t

/-- LD B, Vx: three decimal digits of V[x], each at most 9, hundreds first; I at or below 0x1FF is ReservedWriteError,
I + 2 above 0xFFF is MemoryBoundsError at the lowest failing address (44_index_memory R93; log entries 1, 8 and 14). -/
def Obligations.LdBcdStoresDigits : Prop :=
  ∀ (x : Reg) (s : State), Encodes (.ldBcd x) (0xF033 + x.val * 256) ∧
    (0x1FF < s.i.toNat → s.i.toNat + 2 ≤ 0xFFF → ∃ t, exec (.ldBcd x) s = .next t ∧
      (t.mem.read s.i.toNat).toNat * 100 + (t.mem.read (s.i.toNat + 1)).toNat * 10 +
        (t.mem.read (s.i.toNat + 2)).toNat = (s.getV x).toNat ∧
      (t.mem.read (s.i.toNat + 1)).toNat ≤ 9 ∧ (t.mem.read (s.i.toNat + 2)).toNat ≤ 9 ∧
      SameMemoryOutside s.dataAddr 3 s t ∧ t.i = s.i ∧ t.pc.toNat = (s.pc.toNat + 2) % 65536 ∧
      OnlyRegsIndexMemory [] s t) ∧
    (s.i.toNat ≤ 0x1FF → exec (.ldBcd x) s =
      .next (s.afterFault (.reservedWrite s.i.toNat (BitVec.ofNat 16 (0xF033 + x.val * 256)) s.pc))) ∧
    (s.i.toNat + 2 > 0xFFF → exec (.ldBcd x) s = .next (s.afterFault
      (.memoryBounds (max s.i.toNat 0x1000) (BitVec.ofNat 16 (0xF033 + x.val * 256)) s.pc)))

/-- LD [I], Vx: V0 to Vx stored at I and up, then I moves on by X + 1; the faults are those of LD B
(44_index_memory R94; log entries 1, 8 and 14). -/
def Obligations.StoreRegsDumpsRegisters : Prop :=
  ∀ (x : Reg) (s : State), Encodes (.storeRegs x) (0xF055 + x.val * 256) ∧
    (0x1FF < s.i.toNat → s.i.toNat + x.val ≤ 0xFFF → ∃ t, exec (.storeRegs x) s = .next t ∧
      (∀ k : Reg, k ≤ x → t.mem.read (s.i.toNat + k.val) = s.getV k) ∧
      SameMemoryOutside s.dataAddr (x.val + 1) s t ∧ t.i.toNat = (s.i.toNat + x.val + 1) % 65536 ∧
      t.pc.toNat = (s.pc.toNat + 2) % 65536 ∧ OnlyRegsIndexMemory [] s t) ∧
    (s.i.toNat ≤ 0x1FF → exec (.storeRegs x) s =
      .next (s.afterFault (.reservedWrite s.i.toNat (BitVec.ofNat 16 (0xF055 + x.val * 256)) s.pc))) ∧
    (s.i.toNat + x.val > 0xFFF → exec (.storeRegs x) s = .next (s.afterFault
      (.memoryBounds (max s.i.toNat 0x1000) (BitVec.ofNat 16 (0xF055 + x.val * 256)) s.pc)))

/-- LD Vx, [I]: V0 to Vx loaded from I and up, the registers above Vx unchanged, then I moves on by X + 1; an address
above 0xFFF is MemoryBoundsError at the lowest such one (44_index_memory R95; that it is the lowest one is the spec's
decision D17, log entry 14; the fault's entry is log entry 1). -/
def Obligations.LoadRegsFillsRegisters : Prop :=
  ∀ (x : Reg) (s : State), Encodes (.loadRegs x) (0xF065 + x.val * 256) ∧
    (s.i.toNat + x.val ≤ 0xFFF → ∃ t, exec (.loadRegs x) s = .next t ∧
      (∀ k : Reg, k ≤ x → t.getV k = s.mem.read (s.i.toNat + k.val)) ∧
      t.i.toNat = (s.i.toNat + x.val + 1) % 65536 ∧ t.pc.toNat = (s.pc.toNat + 2) % 65536 ∧ SameMemory s t ∧
      OnlyRegsIndexMemory (writtenRegs (.loadRegs x)) s t) ∧
    (s.i.toNat + x.val > 0xFFF → exec (.loadRegs x) s = .next (s.afterFault
      (.memoryBounds (max s.i.toNat 0x1000) (BitVec.ofNat 16 (0xF065 + x.val * 256)) s.pc)))

/-- A register dump that raised no fault, then a register load from the same address over the memory it left:
V0 to Vx get back the values they were stored with, and I ends where the dump left it (44_index_memory R94, R95). -/
def Obligations.LoadUndoesStore : Prop :=
  ∀ (x : Reg) (s t u : State), Running t → exec (.storeRegs x) s = .next t → u.mem = t.mem → u.i = s.i →
    ∃ w, exec (.loadRegs x) u = .next w ∧ (∀ k : Reg, k ≤ x → w.getV k = s.getV k) ∧ w.i = t.i

/-- Instruction fetch sees data writes: two registers dumped at the pc are the opcode of the very next fetch there
(20_memory R45; log entry 17). -/
def Obligations.StoredBytesAreFetched : Prop :=
  ∀ (x k l : Reg) (s t : State), Running t → exec (.storeRegs x) s = .next t → l ≤ x → k.val + 1 = l.val →
    ∀ p : Word, p.toNat = s.i.toNat + k.val →
      ∃ op, State.fetch { t with pc := p } = some op ∧ op.toNat = (s.getV k).toNat * 256 + (s.getV l).toNat

/-! ## Rules over all instructions -/

/-- Only CLS and DRW change a pixel or REDRAW, and neither clears REDRAW (10_state R25, R27). -/
def Obligations.OnlyDrawingChangesTheDisplay : Prop :=
  ∀ (i : Instr) (s t : State), exec i s = .next t → Running t →
    (i ≠ .cls → (∀ x y n, i ≠ .drw x y n) → SameDisplay s t) ∧ (s.redraw = true → t.redraw = true)

/-- Only CALL and RET touch the call stack, and no instruction changes the key state or leaves HALTED
(10_state R21, R26; 60_exceptions R106). -/
def Obligations.StackKeysAndHaltAreGuarded : Prop :=
  ∀ (i : Instr) (s t : State), exec i s = .next t → Running t →
    ((∀ nnn, i ≠ .call nnn) → i ≠ .ret → SameStack s t) ∧ t.key = s.key ∧ s.halted = none

/-- Every byte of memory but the ones FX33 and FX55 store is unchanged by every instruction (20_memory R33). -/
def Obligations.OnlyStoresChangeMemory : Prop :=
  ∀ (i : Instr) (s t : State), exec i s = .next t → Running t →
    SameMemoryOutside (storedBytes s i).1 (storedBytes s i).2 s t

/-- Every general register but the ones the instruction names as its destination, and VF where the flag logic writes
it, is unchanged; and only ANNN, FX1E, FX29, FX55 and FX65 change I (10_state R13, R16, R17, R20). -/
def Obligations.OnlyDestinationsChange : Prop :=
  ∀ (i : Instr) (s t : State), exec i s = .next t → Running t →
    SameRegsBut (writtenRegs i) s t ∧ (writesIndex i = false → t.i = s.i)

/-! ## Invariants -/

/-- Every step keeps the canonical form of memory (20_memory R32), the fault entry too. The form is the model's choice
(log entry 26). -/
def Obligations.StepKeepsMemoryCanonical : Prop :=
  ∀ s t : State, MemoryCanonical s → step s = .next t → MemoryCanonical t

/-- While the core runs, no step changes a byte of the reserved range, so the font is never mutated (20_memory R35,
R40 at the default RESERVED_WRITE = fault; log entry 8). -/
def Obligations.StepKeepsReservedRange : Prop :=
  ∀ s t : State, ReservedIntact s → step s = .next t → ReservedIntact t

/-- While the core runs, every stack entry in use is at most 0xFFE and pc is at most 0x10FE (10_state R19,
40_control_flow R60; log entry 15). -/
def Obligations.StepKeepsReturnsBounded : Prop :=
  ∀ s t : State, ReturnsBounded s → step s = .next t → ReturnsBounded t

/-- The three invariants hold right after reset (70_reset R120, 20_memory R35, 10_state R19; the canonical form of
memory is the model's choice, log entry 26, and the other two rest on log entries 8, 13 and 15). -/
def Obligations.ResetMeetsTheInvariants : Prop :=
  MemoryCanonical State.reset ∧ ReservedIntact State.reset ∧ ReturnsBounded State.reset

/-- The host's operations keep the three invariants: reset, a load, a key write and the redraw clear
(60_exceptions R112, 70_reset R121; the canonical form of memory is the model's choice, log entry 26, and the other two
rest on log entries 8 and 15). -/
def Obligations.HostOperationsKeepTheInvariants : Prop :=
  ∀ (s : State) (bytes : List Byte) (k : Fin 16) (b : Bool) (t : State),
    t = hostReset s ∨ hostLoad bytes s = .loaded t ∨ t = hostSetKey k b s ∨ t = (hostTakeRedraw s).2 →
    (MemoryCanonical s → MemoryCanonical t) ∧ (ReservedIntact s → ReservedIntact t) ∧
      (ReturnsBounded s → ReturnsBounded t)

/-! ## Reset and the host interface -/

/-- Reset, from any state, a halted one too (70_reset R120; that it clears HALTED is the spec's decision D16, log
entry 1, and the font bytes are log entry 13). -/
def Obligations.ResetSetsEveryField : Prop :=
  ∀ s : State, ∃ t, t = hostReset s ∧
    (∀ a, a < 80 → some (t.mem.read a) = Config.font[a]?) ∧ (∀ a, 80 ≤ a → t.mem.read a = 0) ∧
    (∀ k : Reg, t.getV k = 0) ∧ (∀ k : Fin 16, t.stack.get k = 0) ∧ (∀ k : Fin 16, t.key.get k = false) ∧
    t.i = 0 ∧ t.sp.val = 0 ∧ t.pc = 0x200 ∧ t.dt = 0 ∧ t.st = 0 ∧ (∀ px py, t.fb.pixel px py = false) ∧
    t.redraw = true ∧ t.halted = none

/-- A load of at most 3584 bytes copies them to 0x200 and changes nothing else; a longer one fails
(70_reset R121; that a load does not reset is log entry 18). -/
def Obligations.LoadCopiesTheImage : Prop :=
  ∀ (bytes : List Byte) (s : State),
    (bytes.length ≤ 3584 → ∃ t, hostLoad bytes s = .loaded t ∧
      (∀ k, k < bytes.length → some (t.mem.read (0x200 + k)) = bytes[k]?) ∧
      SameMemoryOutside 0x200 bytes.length s t ∧ t = { s with mem := t.mem }) ∧
    (bytes.length > 3584 → hostLoad bytes s = .programTooLarge bytes.length)

/-- The launch state of an image: its bytes at 0x200, the font, zeros elsewhere, and all the rest as after reset
(70_reset R122; log entry 13 for the font). -/
def Obligations.BootReachesLaunchState : Prop :=
  ∀ (bytes : List Byte) (s : State), bytes.length ≤ 3584 → ∃ t, hostBoot bytes s = .loaded t ∧
    (∀ a, a < 80 → some (t.mem.read a) = Config.font[a]?) ∧ (∀ a, 80 ≤ a → a < 0x200 → t.mem.read a = 0) ∧
    (∀ k, k < bytes.length → some (t.mem.read (0x200 + k)) = bytes[k]?) ∧
    (∀ a, 0x200 + bytes.length ≤ a → t.mem.read a = 0) ∧
    t = { State.reset with mem := t.mem, free := s.free }

/-- The host's surfaces: a key write sets that key alone, the framebuffer view holds pixel (x, y) at index x + 64·y,
the redraw read clears the flag alone, the timer read gives DT and ST (60_exceptions R113, R114, R115; that a nonzero
key byte is pressed is the spec's decision D15, log entry 21). -/
def Obligations.HostSurfacesShowTheState : Prop :=
  ∀ (s : State) (k : Fin 16) (b : Bool),
    (hostSetKey k b s).key.get k = b ∧ (∀ j : Fin 16, j ≠ k → (hostSetKey k b s).key.get j = s.key.get j) ∧
    hostSetKey k b s = { s with key := (hostSetKey k b s).key } ∧
    (∀ c : Byte, (hostSetKeyByte k c s).key.get k = true ↔ c.toNat ≠ 0) ∧
    (hostReadFramebuffer s).length = 2048 ∧
    (∀ x y, x < 64 → y < 32 → (hostReadFramebuffer s)[x + 64 * y]? = some (s.fb.pixel x y)) ∧
    hostTakeRedraw s = (s.redraw, { s with redraw := false }) ∧ hostReadTimers s = (s.dt, s.st)

/-! ## The named parameters -/

/-- The machine at the default parameters is the machine (00_scope R6; log entries 5 to 9), for the same draw and the
same free values (log entries 2, 3 and 4). -/
def Obligations.DefaultParametersGiveTheStep : Prop :=
  ∀ s : State, cycleWith Config.params s = step s

/-- Where the values of a parameter agree: the shifts with x = y, and a sprite that stays on the screen
(92_eei_decisions D1 and D2; log entries 5 and 6), for the same free values where the draw faults (log entries 2 and
4). -/
def Obligations.ParametersAgreeWhereUnused : Prop :=
  (∀ (p : ShiftSource) (x : Reg) (s : State),
    shiftRight p x x s = exec (.shr x x) s ∧ shiftLeft p x x s = exec (.shl x x) s) ∧
  ∀ (x y : Reg) (n : Nibble) (s : State), (s.getV x).toNat + 8 ≤ 64 → (s.getV y).toNat + n.toNat ≤ 32 →
    draw .wrap x y n s = exec (.drw x y n) s

/-! ## The host's view -/

/-- The host's step is a single step, and the host observes only its surfaces: a running core's `step` operation is one
step of the machine and answers its record or ok, a halted core has none, and every other operation answers alike in any
two states that show the same pixels, REDRAW, DT and ST. And a program observes nothing of the host's looking: a step
from a state that differs in REDRAW alone goes as the step from the state itself, for the same draw and the same free
values: the two states hold the same counter, on which alone the model's free values depend (60_exceptions R112, R117;
10_state R27, R31; what a halted core answers is log entry 1, the free values are log entries 2, 3 and 4). -/
def Obligations.HostSeesOnlyItsSurfaces : Prop :=
  (∀ s : State, Running s → ∃ t, step s = .next t ∧ hostDo .step s = some (.stepped t.halted, t)) ∧
  (∀ (s : State) (r : FaultRecord), s.halted = some r → hostDo .step s = none) ∧
  (∀ (op : HostOp) (s u : State), op ≠ .step → hostView s = hostView u →
    ∃ answer t w, hostDo op s = some (answer, t) ∧ hostDo op u = some (answer, w)) ∧
  ∀ (s t : State) (b : Bool), step s = .next t →
    ∃ w, step (s.setRedraw b) = .next w ∧ w.setRedraw t.redraw = t
end

