-- ==== Sys2Proof/Laws/Decode.lean ====
section
/-! SUPPORT. Opcodes as numbers: what each field of an opcode is, and what number each encoding form gives. -/

namespace Sys2Proof

/-! ## The fields of an opcode as numbers -/

theorem opCategory_toNat (op : Word) : (opCategory op).toNat = op.toNat / 4096 := by
  have := op.isLt
  simp [opCategory, BitVec.extractLsb'_toNat, Nat.shiftRight_eq_div_pow]
  omega

theorem opX_val (op : Word) : (opX op).val = op.toNat / 256 % 16 := by
  simp [opX, Nat.shiftRight_eq_div_pow]

theorem opY_val (op : Word) : (opY op).val = op.toNat / 16 % 16 := by
  simp [opY, Nat.shiftRight_eq_div_pow]

theorem opN_toNat (op : Word) : (opN op).toNat = op.toNat % 16 := by
  simp [opN, BitVec.extractLsb'_toNat]

theorem opNN_toNat (op : Word) : (opNN op).toNat = op.toNat % 256 := by
  simp [opNN, BitVec.extractLsb'_toNat]

theorem opNNN_toNat (op : Word) : (opNNN op).toNat = op.toNat % 4096 := by
  simp [opNNN, BitVec.extractLsb'_toNat]

/-! ## The encoding forms as numbers -/

theorem wordNNN_toNat (c : Nibble) (nnn : Addr12) : (wordNNN c nnn).toNat = c.toNat * 4096 + nnn.toNat := by
  rw [wordNNN, BitVec.toNat_append, ← Nat.shiftLeft_add_eq_or_of_lt nnn.isLt, Nat.shiftLeft_eq]

theorem wordXNN_toNat (c : Nibble) (x : Reg) (nn : Byte) :
    (wordXNN c x nn).toNat = c.toNat * 4096 + x.val * 256 + nn.toNat := by
  have hx : (BitVec.ofFin x : BitVec 4).toNat = x.val := rfl
  rw [wordXNN, BitVec.toNat_append, ← Nat.shiftLeft_add_eq_or_of_lt (BitVec.isLt _), BitVec.toNat_append,
    ← Nat.shiftLeft_add_eq_or_of_lt nn.isLt, Nat.shiftLeft_eq, Nat.shiftLeft_eq, hx]
  omega

theorem wordXYN_toNat (c : Nibble) (x y : Reg) (n : Nibble) :
    (wordXYN c x y n).toNat = c.toNat * 4096 + x.val * 256 + y.val * 16 + n.toNat := by
  have hx : (BitVec.ofFin x : BitVec 4).toNat = x.val := rfl
  have hy : (BitVec.ofFin y : BitVec 4).toNat = y.val := rfl
  rw [wordXYN, BitVec.toNat_append, ← Nat.shiftLeft_add_eq_or_of_lt (BitVec.isLt _), BitVec.toNat_append,
    ← Nat.shiftLeft_add_eq_or_of_lt (BitVec.isLt _), BitVec.toNat_append,
    ← Nat.shiftLeft_add_eq_or_of_lt n.isLt, Nat.shiftLeft_eq, Nat.shiftLeft_eq, Nat.shiftLeft_eq,
    hx, hy]
  omega

/-! ## The fields of an encoding form -/

@[simp] theorem opCategory_wordNNN (c : Nibble) (nnn : Addr12) : opCategory (wordNNN c nnn) = c := by
  apply BitVec.eq_of_toNat_eq
  have := nnn.isLt
  rw [opCategory_toNat, wordNNN_toNat]; omega

@[simp] theorem opNNN_wordNNN (c : Nibble) (nnn : Addr12) : opNNN (wordNNN c nnn) = nnn := by
  apply BitVec.eq_of_toNat_eq
  have := nnn.isLt
  rw [opNNN_toNat, wordNNN_toNat]; omega

@[simp] theorem opCategory_wordXNN (c : Nibble) (x : Reg) (nn : Byte) : opCategory (wordXNN c x nn) = c := by
  apply BitVec.eq_of_toNat_eq
  have := nn.isLt
  have := x.isLt
  rw [opCategory_toNat, wordXNN_toNat]; omega

@[simp] theorem opX_wordXNN (c : Nibble) (x : Reg) (nn : Byte) : opX (wordXNN c x nn) = x := by
  apply Fin.ext
  have := nn.isLt
  have := x.isLt
  rw [opX_val, wordXNN_toNat]; omega

@[simp] theorem opNN_wordXNN (c : Nibble) (x : Reg) (nn : Byte) : opNN (wordXNN c x nn) = nn := by
  apply BitVec.eq_of_toNat_eq
  have := nn.isLt
  rw [opNN_toNat, wordXNN_toNat]; omega

@[simp] theorem opCategory_wordXYN (c : Nibble) (x y : Reg) (n : Nibble) : opCategory (wordXYN c x y n) = c := by
  apply BitVec.eq_of_toNat_eq
  have := n.isLt
  have := x.isLt
  have := y.isLt
  rw [opCategory_toNat, wordXYN_toNat]; omega

@[simp] theorem opX_wordXYN (c : Nibble) (x y : Reg) (n : Nibble) : opX (wordXYN c x y n) = x := by
  apply Fin.ext
  have := n.isLt
  have := x.isLt
  have := y.isLt
  rw [opX_val, wordXYN_toNat]; omega

@[simp] theorem opY_wordXYN (c : Nibble) (x y : Reg) (n : Nibble) : opY (wordXYN c x y n) = y := by
  apply Fin.ext
  have := n.isLt
  have := y.isLt
  rw [opY_val, wordXYN_toNat]; omega

@[simp] theorem opN_wordXYN (c : Nibble) (x y : Reg) (n : Nibble) : opN (wordXYN c x y n) = n := by
  apply BitVec.eq_of_toNat_eq
  have := n.isLt
  rw [opN_toNat, wordXYN_toNat]; omega

/-! ## An opcode from its fields -/

theorem wordNNN_of_fields (op : Word) : wordNNN (opCategory op) (opNNN op) = op := by
  apply BitVec.eq_of_toNat_eq
  rw [wordNNN_toNat, opCategory_toNat, opNNN_toNat]; omega

theorem wordXNN_of_fields (op : Word) : wordXNN (opCategory op) (opX op) (opNN op) = op := by
  apply BitVec.eq_of_toNat_eq
  rw [wordXNN_toNat, opCategory_toNat, opX_val, opNN_toNat]; omega

theorem wordXYN_of_fields (op : Word) : wordXYN (opCategory op) (opX op) (opY op) (opN op) = op := by
  apply BitVec.eq_of_toNat_eq
  rw [wordXYN_toNat, opCategory_toNat, opX_val, opY_val, opN_toNat]; omega

/-! ## Bytes of an opcode -/

theorem opcodeOf_toNat (high low : Byte) : (opcodeOf high low).toNat = high.toNat * 256 + low.toNat := by
  rw [opcodeOf, BitVec.toNat_append, ← Nat.shiftLeft_add_eq_or_of_lt low.isLt, Nat.shiftLeft_eq]

@[simp] theorem opcodeOf_bytes (op : Word) : opcodeOf (highByte op) (lowByte op) = op := by
  apply BitVec.eq_of_toNat_eq
  have := op.isLt
  rw [opcodeOf_toNat]
  simp [highByte, lowByte, BitVec.extractLsb'_toNat, Nat.shiftRight_eq_div_pow]
  omega

/-- A category is one of the sixteen the decoder compares with (30_encoding R51). -/
theorem opCategory_cases (op : Word) :
    opCategory op = 0x0 ∨ opCategory op = 0x1 ∨ opCategory op = 0x2 ∨ opCategory op = 0x3 ∨
    opCategory op = 0x4 ∨ opCategory op = 0x5 ∨ opCategory op = 0x6 ∨ opCategory op = 0x7 ∨
    opCategory op = 0x8 ∨ opCategory op = 0x9 ∨ opCategory op = 0xA ∨ opCategory op = 0xB ∨
    opCategory op = 0xC ∨ opCategory op = 0xD ∨ opCategory op = 0xE ∨ opCategory op = 0xF := by
  generalize opCategory op = c
  revert c
  decide

end Sys2Proof
end

