-- ==== Sys2Proof/Laws/Memory.lean ====
section
/-! SUPPORT. The laws of memory: a read after a write, the canonical form, blocks of bytes. -/

namespace Sys2Proof.Machine

/-! ## A read after a write -/

theorem Memory.read_list (m : Memory) (a k : Nat) (b : Byte) :
    (m.list a b).read k = if k = a then b else m.read k := by
  induction m with
  | nil => simp [Memory.list, Memory.read, eq_comm]
  | cons c m ih =>
    obtain ⟨p, q⟩ := c
    have sym : (a = k) = (k = a) := propext eq_comm
    rcases Nat.lt_trichotomy a p with h1 | h1 | h1
    · simp [Memory.list, Memory.read, h1, sym]
    · subst h1
      by_cases h3 : k = a <;> simp [Memory.list, Memory.read, sym, h3]
    · have h2 : ¬a < p := by omega
      have h3 : ¬a = p := by omega
      simp only [Memory.list, h2, h3, if_false, Memory.read, ih]
      by_cases h4 : p = k
      · simp [h4, show ¬k = a by omega]
      · simp [h4]

theorem Memory.read_unlist (m : Memory) (a k : Nat) :
    (m.unlist a).read k = if k = a then Memory.unlisted a else m.read k := by
  induction m with
  | nil => simp [Memory.unlist, Memory.read]; intro h; rw [h]
  | cons c m ih =>
    obtain ⟨p, q⟩ := c
    simp only [Memory.unlist] at ih
    by_cases hp : p = a
    · subst hp
      simp only [Memory.unlist, List.filter_cons, ne_eq, not_true_eq_false, decide_false]
      simp only [Bool.false_eq_true, if_false, ih, Memory.read]
      split_ifs <;> simp_all
    · simp only [Memory.unlist, List.filter_cons, ne_eq, hp, not_false_eq_true, decide_true, if_true,
        Memory.read, ih]
      split_ifs <;> simp_all

/-- A write gives the byte back at its address and leaves every other address alone. -/
theorem Memory.read_write (m : Memory) (a k : Nat) (b : Byte) :
    (m.write a b).read k = if k = a then b else m.read k := by
  unfold Memory.write
  split_ifs with h hk hk <;> simp_all [Memory.read_list, Memory.read_unlist]

@[simp] theorem Memory.read_write_self (m : Memory) (a : Nat) (b : Byte) : (m.write a b).read a = b := by
  simp [Memory.read_write]

theorem Memory.read_write_ne (m : Memory) (a k : Nat) (b : Byte) (h : k ≠ a) :
    (m.write a b).read k = m.read k := by
  simp [Memory.read_write, h]

/-! ## Blocks of bytes -/

theorem Memory.read_writeBytes (m : Memory) (a k : Nat) (bs : List Byte) :
    (m.writeBytes a bs).read k = if a ≤ k ∧ k < a + bs.length then bs.getD (k - a) 0 else m.read k := by
  induction bs generalizing m a with
  | nil => simp [Memory.writeBytes]
  | cons b bs ih =>
    simp only [Memory.writeBytes, ih, Memory.read_write, List.length_cons]
    by_cases h1 : k = a
    · subst h1; simp
    · by_cases h2 : a + 1 ≤ k ∧ k < a + 1 + bs.length
      · obtain ⟨j, rfl⟩ : ∃ j, k = a + 1 + j := ⟨k - (a + 1), by omega⟩
        have e : a + 1 + j - a = j + 1 := by omega
        rw [if_pos h2, if_pos (by omega), e, Nat.add_sub_cancel_left]
        simp
      · rw [if_neg h2, if_neg h1, if_neg (by omega)]

@[simp] theorem Memory.length_readBytes (m : Memory) (a n : Nat) : (m.readBytes a n).length = n := by
  simp [Memory.readBytes]

theorem Memory.getD_readBytes (m : Memory) (a n k : Nat) (h : k < n) :
    (m.readBytes a n).getD k 0 = m.read (a + k) := by
  simp [Memory.readBytes, h]

/-! ## The canonical form -/

theorem Memory.wf_nil : Memory.wf [] := by simp [Memory.wf]

theorem Memory.mem_list (m : Memory) (a : Nat) (b : Byte) (c : Host.Cell) (h : c ∈ m.list a b) :
    c = (a, b) ∨ c ∈ m := by
  induction m with
  | nil => simp_all [Memory.list]
  | cons d m ih =>
    obtain ⟨p, q⟩ := d
    simp only [Memory.list] at h
    split_ifs at h <;> simp_all
    · tauto
    · rcases h with h | h
      · tauto
      · rcases ih h with h | h <;> tauto

theorem Memory.wf_list (m : Memory) (a : Nat) (b : Byte) (hm : m.wf) (ha : a < Config.memSize)
    (hb : b ≠ Memory.unlisted a) : (m.list a b).wf := by
  obtain ⟨hp, hc⟩ := hm
  refine ⟨?_, fun c hcm => ?_⟩
  · clear hc
    induction m with
    | nil => simp [Memory.list]
    | cons d m ih =>
      obtain ⟨p, q⟩ := d
      obtain ⟨h1, h2⟩ := List.pairwise_cons.mp hp
      simp only [Memory.list]
      split_ifs with h3 h4
      · refine List.pairwise_cons.mpr ⟨fun c hcm => ?_, hp⟩
        rcases List.mem_cons.mp hcm with rfl | hcm
        · exact h3
        · exact Nat.lt_trans h3 (h1 c hcm)
      · subst h4
        exact List.pairwise_cons.mpr ⟨h1, h2⟩
      · refine List.pairwise_cons.mpr ⟨fun c hcm => ?_, ih h2⟩
        rcases Memory.mem_list m a b c hcm with rfl | hcm
        · show p < a
          omega
        · exact h1 c hcm
  · rcases Memory.mem_list m a b c hcm with rfl | hcm
    · exact ⟨ha, hb⟩
    · exact hc c hcm

theorem Memory.wf_unlist (m : Memory) (a : Nat) (hm : m.wf) : (m.unlist a).wf :=
  ⟨hm.1.filter _, fun c hc => hm.2 c (List.mem_of_mem_filter hc)⟩

/-- A write in the address space keeps the canonical form. -/
theorem Memory.wf_write (m : Memory) (a : Nat) (b : Byte) (hm : m.wf) (ha : a < Config.memSize) :
    (m.write a b).wf := by
  unfold Memory.write
  split_ifs with h
  · exact Memory.wf_unlist m a hm
  · exact Memory.wf_list m a b hm ha h

/-- A block written in the address space keeps the canonical form. -/
theorem Memory.wf_writeBytes (m : Memory) (a : Nat) (bs : List Byte) (hm : m.wf)
    (ha : a + bs.length ≤ Config.memSize) : (m.writeBytes a bs).wf := by
  induction bs generalizing m a with
  | nil => exact hm
  | cons b bs ih =>
    simp only [List.length_cons] at ha
    exact ih (m.write a b) (a + 1) (Memory.wf_write m a b hm (by omega)) (by omega)

/-- A memory built from bytes is canonical. -/
theorem Memory.wf_ofBytes (f : Nat → Byte) : (Memory.ofBytes f).wf := by
  unfold Memory.ofBytes
  refine ⟨?_, fun c hc => ?_⟩
  · refine List.Pairwise.map _ (fun _ _ h => h) ?_
    exact List.Pairwise.filter _ List.pairwise_lt_range
  · obtain ⟨a, ha, rfl⟩ := List.mem_map.mp hc
    simpa using ha

theorem Memory.read_map_filter (f : Nat → Byte) (l : List Nat) (k : Nat) :
    Memory.read ((l.filter (fun a => f a ≠ Memory.unlisted a)).map (fun a => (a, f a))) k =
      if k ∈ l then f k else Memory.unlisted k := by
  induction l with
  | nil => simp [Memory.read]
  | cons a l ih =>
    by_cases h : f a = Memory.unlisted a
    · by_cases hk : k = a
      · subst hk; simp_all
      · simp_all
    · by_cases hk : k = a
      · subst hk; simp_all [Memory.read]
      · have hk' : ¬a = k := fun e => hk e.symm
        simp_all [Memory.read]

theorem Memory.read_map_filter_range (f : Nat → Byte) (n k : Nat) :
    Memory.read (((List.range n).filter (fun a => f a ≠ Memory.unlisted a)).map (fun a => (a, f a))) k =
      if k < n then f k else Memory.unlisted k := by
  rw [Memory.read_map_filter]
  simp only [List.mem_range]

/-- A memory built from bytes reads as them in the address space. -/
theorem Memory.read_ofBytes (f : Nat → Byte) (k : Nat) :
    (Memory.ofBytes f).read k = if k < Config.memSize then f k else Memory.unlisted k := by
  unfold Memory.ofBytes
  exact Memory.read_map_filter_range f Config.memSize k

/-! ## The canonical form makes equal memories equal data -/

theorem Memory.read_of_below (m : Memory) (a : Nat) (h : ∀ c ∈ m, a < c.1) :
    m.read a = Memory.unlisted a := by
  induction m with
  | nil => rfl
  | cons c m ih =>
    have h1 := h c List.mem_cons_self
    rw [Memory.read, if_neg (by omega)]
    exact ih (fun d hd => h d (List.mem_cons_of_mem c hd))

/-- Two canonical memories that read the same at every address are the same list. -/
theorem Memory.wf_ext (m n : Memory) (hm : m.wf) (hn : n.wf) (h : ∀ a, m.read a = n.read a) : m = n := by
  induction m generalizing n with
  | nil =>
    cases n with
    | nil => rfl
    | cons d n =>
      have h1 := h d.1
      simp only [Memory.read, if_true] at h1
      exact absurd h1.symm (hn.2 d List.mem_cons_self).2
  | cons c m ih =>
    obtain ⟨hcm, hm1⟩ := List.pairwise_cons.mp hm.1
    cases n with
    | nil =>
      have h1 := h c.1
      simp only [Memory.read, if_true] at h1
      exact absurd h1 (hm.2 c List.mem_cons_self).2
    | cons d n =>
      obtain ⟨hdn, hn1⟩ := List.pairwise_cons.mp hn.1
      have hmr : ∀ a, a ≤ c.1 → Memory.read m a = Memory.unlisted a := fun a ha =>
        Memory.read_of_below m a (fun e he => Nat.lt_of_le_of_lt ha (hcm e he))
      have hnr : ∀ a, a ≤ d.1 → Memory.read n a = Memory.unlisted a := fun a ha =>
        Memory.read_of_below n a (fun e he => Nat.lt_of_le_of_lt ha (hdn e he))
      have hcu := (hm.2 c List.mem_cons_self).2
      have hdu := (hn.2 d List.mem_cons_self).2
      have hc := h c.1
      have hd := h d.1
      simp only [Memory.read, if_true] at hc hd
      have key : c.1 = d.1 := by
        rcases Nat.lt_trichotomy c.1 d.1 with hlt | heq | hgt
        · rw [if_neg (by omega), hnr c.1 (by omega)] at hc
          exact absurd hc hcu
        · exact heq
        · rw [if_neg (by omega), hmr d.1 (by omega)] at hd
          exact absurd hd.symm hdu
      rw [if_pos key.symm] at hc
      have hcd : c = d := Prod.ext key hc
      subst hcd
      have hrest : m = n := by
        refine ih n ⟨hm1, fun e he => hm.2 e (List.mem_cons_of_mem c he)⟩
          ⟨hn1, fun e he => hn.2 e (List.mem_cons_of_mem c he)⟩ (fun a => ?_)
        rcases Nat.lt_or_ge c.1 a with hlt | hge
        · have ha := h a
          rwa [Memory.read, Memory.read, if_neg (by omega), if_neg (by omega)] at ha
        · rw [hmr a hge, hnr a hge]
      rw [hrest]

end Sys2Proof.Machine
end

