-- ==== Sys2Proof/Laws/State.lean ====
section
/-! SUPPORT. One lemma for each field of State under each named update, true by unfolding once, so that no later
proof unfolds a record update; and what a register reads as after a write. -/

namespace Sys2Proof.Machine

/-! ## Fields an update leaves -/

@[simp] theorem State.setV_mem (s : State) (x : Reg) (b : Byte) : (s.setV x b).mem = s.mem := rfl
@[simp] theorem State.setV_i (s : State) (x : Reg) (b : Byte) : (s.setV x b).i = s.i := rfl
@[simp] theorem State.setV_pc (s : State) (x : Reg) (b : Byte) : (s.setV x b).pc = s.pc := rfl
@[simp] theorem State.setV_stack (s : State) (x : Reg) (b : Byte) : (s.setV x b).stack = s.stack := rfl
@[simp] theorem State.setV_sp (s : State) (x : Reg) (b : Byte) : (s.setV x b).sp = s.sp := rfl
@[simp] theorem State.setV_dt (s : State) (x : Reg) (b : Byte) : (s.setV x b).dt = s.dt := rfl
@[simp] theorem State.setV_st (s : State) (x : Reg) (b : Byte) : (s.setV x b).st = s.st := rfl
@[simp] theorem State.setV_fb (s : State) (x : Reg) (b : Byte) : (s.setV x b).fb = s.fb := rfl
@[simp] theorem State.setV_key (s : State) (x : Reg) (b : Byte) : (s.setV x b).key = s.key := rfl
@[simp] theorem State.setV_redraw (s : State) (x : Reg) (b : Byte) : (s.setV x b).redraw = s.redraw := rfl
@[simp] theorem State.setV_halted (s : State) (x : Reg) (b : Byte) : (s.setV x b).halted = s.halted := rfl
@[simp] theorem State.setV_free (s : State) (x : Reg) (b : Byte) : (s.setV x b).free = s.free := rfl

@[simp] theorem State.setFlag_mem (s : State) (b : Bool) : (s.setFlag b).mem = s.mem := rfl
@[simp] theorem State.setFlag_i (s : State) (b : Bool) : (s.setFlag b).i = s.i := rfl
@[simp] theorem State.setFlag_pc (s : State) (b : Bool) : (s.setFlag b).pc = s.pc := rfl
@[simp] theorem State.setFlag_stack (s : State) (b : Bool) : (s.setFlag b).stack = s.stack := rfl
@[simp] theorem State.setFlag_sp (s : State) (b : Bool) : (s.setFlag b).sp = s.sp := rfl
@[simp] theorem State.setFlag_dt (s : State) (b : Bool) : (s.setFlag b).dt = s.dt := rfl
@[simp] theorem State.setFlag_st (s : State) (b : Bool) : (s.setFlag b).st = s.st := rfl
@[simp] theorem State.setFlag_fb (s : State) (b : Bool) : (s.setFlag b).fb = s.fb := rfl
@[simp] theorem State.setFlag_key (s : State) (b : Bool) : (s.setFlag b).key = s.key := rfl
@[simp] theorem State.setFlag_redraw (s : State) (b : Bool) : (s.setFlag b).redraw = s.redraw := rfl
@[simp] theorem State.setFlag_halted (s : State) (b : Bool) : (s.setFlag b).halted = s.halted := rfl
@[simp] theorem State.setFlag_free (s : State) (b : Bool) : (s.setFlag b).free = s.free := rfl

@[simp] theorem State.setRedraw_mem (s : State) (b : Bool) : (s.setRedraw b).mem = s.mem := rfl
@[simp] theorem State.setRedraw_v (s : State) (b : Bool) : (s.setRedraw b).v = s.v := rfl
@[simp] theorem State.setRedraw_i (s : State) (b : Bool) : (s.setRedraw b).i = s.i := rfl
@[simp] theorem State.setRedraw_pc (s : State) (b : Bool) : (s.setRedraw b).pc = s.pc := rfl
@[simp] theorem State.setRedraw_stack (s : State) (b : Bool) : (s.setRedraw b).stack = s.stack := rfl
@[simp] theorem State.setRedraw_sp (s : State) (b : Bool) : (s.setRedraw b).sp = s.sp := rfl
@[simp] theorem State.setRedraw_dt (s : State) (b : Bool) : (s.setRedraw b).dt = s.dt := rfl
@[simp] theorem State.setRedraw_st (s : State) (b : Bool) : (s.setRedraw b).st = s.st := rfl
@[simp] theorem State.setRedraw_fb (s : State) (b : Bool) : (s.setRedraw b).fb = s.fb := rfl
@[simp] theorem State.setRedraw_key (s : State) (b : Bool) : (s.setRedraw b).key = s.key := rfl
@[simp] theorem State.setRedraw_halted (s : State) (b : Bool) : (s.setRedraw b).halted = s.halted := rfl
@[simp] theorem State.setRedraw_free (s : State) (b : Bool) : (s.setRedraw b).free = s.free := rfl
@[simp] theorem State.setRedraw_redraw (s : State) (b : Bool) : (s.setRedraw b).redraw = b := rfl
@[simp] theorem State.setRedraw_getV (s : State) (b : Bool) (x : Reg) : (s.setRedraw b).getV x = s.getV x := rfl
theorem State.setRedraw_fillRegs (s : State) (b : Bool) (x : Reg) (bs : List Byte) :
    (s.setRedraw b).fillRegs x bs = (s.fillRegs x bs).setRedraw b := by simp only [State.fillRegs, State.setRedraw]
theorem State.setRedraw_addToI (s : State) (b : Bool) (n : Nat) :
    (s.setRedraw b).addToI n = (s.addToI n).setRedraw b := rfl
theorem State.setRedraw_setV (s : State) (b : Bool) (x : Reg) (c : Byte) :
    (s.setRedraw b).setV x c = (s.setV x c).setRedraw b := rfl
theorem State.setRedraw_setFlag (s : State) (b c : Bool) :
    (s.setRedraw b).setFlag c = (s.setFlag c).setRedraw b := rfl
theorem State.setRedraw_advance (s : State) (b : Bool) (n : Nat) :
    (s.setRedraw b).advance n = (s.advance n).setRedraw b := rfl
theorem State.setRedraw_skipIf (s : State) (b c : Bool) :
    (s.setRedraw b).skipIf c = (s.skipIf c).setRedraw b := rfl
@[simp] theorem State.setRedraw_setRedraw (s : State) (b c : Bool) : (s.setRedraw b).setRedraw c = s.setRedraw c := rfl
@[simp] theorem State.setRedraw_self (s : State) : s.setRedraw s.redraw = s := rfl

@[simp] theorem State.advance_mem (s : State) (n : Nat) : (s.advance n).mem = s.mem := rfl
@[simp] theorem State.advance_v (s : State) (n : Nat) : (s.advance n).v = s.v := rfl
@[simp] theorem State.advance_i (s : State) (n : Nat) : (s.advance n).i = s.i := rfl
@[simp] theorem State.advance_stack (s : State) (n : Nat) : (s.advance n).stack = s.stack := rfl
@[simp] theorem State.advance_sp (s : State) (n : Nat) : (s.advance n).sp = s.sp := rfl
@[simp] theorem State.advance_dt (s : State) (n : Nat) : (s.advance n).dt = s.dt := rfl
@[simp] theorem State.advance_st (s : State) (n : Nat) : (s.advance n).st = s.st := rfl
@[simp] theorem State.advance_fb (s : State) (n : Nat) : (s.advance n).fb = s.fb := rfl
@[simp] theorem State.advance_key (s : State) (n : Nat) : (s.advance n).key = s.key := rfl
@[simp] theorem State.advance_redraw (s : State) (n : Nat) : (s.advance n).redraw = s.redraw := rfl
@[simp] theorem State.advance_halted (s : State) (n : Nat) : (s.advance n).halted = s.halted := rfl
@[simp] theorem State.advance_free (s : State) (n : Nat) : (s.advance n).free = s.free := rfl

@[simp] theorem State.addToI_mem (s : State) (n : Nat) : (s.addToI n).mem = s.mem := rfl
@[simp] theorem State.addToI_v (s : State) (n : Nat) : (s.addToI n).v = s.v := rfl
@[simp] theorem State.addToI_pc (s : State) (n : Nat) : (s.addToI n).pc = s.pc := rfl
@[simp] theorem State.addToI_stack (s : State) (n : Nat) : (s.addToI n).stack = s.stack := rfl
@[simp] theorem State.addToI_sp (s : State) (n : Nat) : (s.addToI n).sp = s.sp := rfl
@[simp] theorem State.addToI_dt (s : State) (n : Nat) : (s.addToI n).dt = s.dt := rfl
@[simp] theorem State.addToI_st (s : State) (n : Nat) : (s.addToI n).st = s.st := rfl
@[simp] theorem State.addToI_fb (s : State) (n : Nat) : (s.addToI n).fb = s.fb := rfl
@[simp] theorem State.addToI_key (s : State) (n : Nat) : (s.addToI n).key = s.key := rfl
@[simp] theorem State.addToI_redraw (s : State) (n : Nat) : (s.addToI n).redraw = s.redraw := rfl
@[simp] theorem State.addToI_halted (s : State) (n : Nat) : (s.addToI n).halted = s.halted := rfl
@[simp] theorem State.addToI_free (s : State) (n : Nat) : (s.addToI n).free = s.free := rfl

@[simp] theorem State.fillRegs_mem (s : State) (x : Reg) (bs : List Byte) : (s.fillRegs x bs).mem = s.mem := by simp only [State.fillRegs]
@[simp] theorem State.fillRegs_i (s : State) (x : Reg) (bs : List Byte) : (s.fillRegs x bs).i = s.i := by simp only [State.fillRegs]
@[simp] theorem State.fillRegs_pc (s : State) (x : Reg) (bs : List Byte) : (s.fillRegs x bs).pc = s.pc := by simp only [State.fillRegs]
@[simp] theorem State.fillRegs_stack (s : State) (x : Reg) (bs : List Byte) : (s.fillRegs x bs).stack = s.stack := by simp only [State.fillRegs]
@[simp] theorem State.fillRegs_sp (s : State) (x : Reg) (bs : List Byte) : (s.fillRegs x bs).sp = s.sp := by simp only [State.fillRegs]
@[simp] theorem State.fillRegs_dt (s : State) (x : Reg) (bs : List Byte) : (s.fillRegs x bs).dt = s.dt := by simp only [State.fillRegs]
@[simp] theorem State.fillRegs_st (s : State) (x : Reg) (bs : List Byte) : (s.fillRegs x bs).st = s.st := by simp only [State.fillRegs]
@[simp] theorem State.fillRegs_fb (s : State) (x : Reg) (bs : List Byte) : (s.fillRegs x bs).fb = s.fb := by simp only [State.fillRegs]
@[simp] theorem State.fillRegs_key (s : State) (x : Reg) (bs : List Byte) : (s.fillRegs x bs).key = s.key := by simp only [State.fillRegs]
@[simp] theorem State.fillRegs_redraw (s : State) (x : Reg) (bs : List Byte) : (s.fillRegs x bs).redraw = s.redraw := by simp only [State.fillRegs]
@[simp] theorem State.fillRegs_halted (s : State) (x : Reg) (bs : List Byte) : (s.fillRegs x bs).halted = s.halted := by simp only [State.fillRegs]
@[simp] theorem State.fillRegs_free (s : State) (x : Reg) (bs : List Byte) : (s.fillRegs x bs).free = s.free := by simp only [State.fillRegs]

@[simp] theorem State.tick_mem (s : State) : (s.tick).mem = s.mem := rfl
@[simp] theorem State.tick_v (s : State) : (s.tick).v = s.v := rfl
@[simp] theorem State.tick_i (s : State) : (s.tick).i = s.i := rfl
@[simp] theorem State.tick_pc (s : State) : (s.tick).pc = s.pc := rfl
@[simp] theorem State.tick_stack (s : State) : (s.tick).stack = s.stack := rfl
@[simp] theorem State.tick_sp (s : State) : (s.tick).sp = s.sp := rfl
@[simp] theorem State.tick_fb (s : State) : (s.tick).fb = s.fb := rfl
@[simp] theorem State.tick_key (s : State) : (s.tick).key = s.key := rfl
@[simp] theorem State.tick_redraw (s : State) : (s.tick).redraw = s.redraw := rfl
@[simp] theorem State.tick_halted (s : State) : (s.tick).halted = s.halted := rfl
@[simp] theorem State.tick_free (s : State) : (s.tick).free = s.free := rfl

@[simp] theorem State.placeOpcode_v (s : State) (a : Nat) (op : Word) : (s.placeOpcode a op).v = s.v := rfl
@[simp] theorem State.placeOpcode_i (s : State) (a : Nat) (op : Word) : (s.placeOpcode a op).i = s.i := rfl
@[simp] theorem State.placeOpcode_pc (s : State) (a : Nat) (op : Word) : (s.placeOpcode a op).pc = s.pc := rfl
@[simp] theorem State.placeOpcode_stack (s : State) (a : Nat) (op : Word) : (s.placeOpcode a op).stack = s.stack := rfl
@[simp] theorem State.placeOpcode_sp (s : State) (a : Nat) (op : Word) : (s.placeOpcode a op).sp = s.sp := rfl
@[simp] theorem State.placeOpcode_dt (s : State) (a : Nat) (op : Word) : (s.placeOpcode a op).dt = s.dt := rfl
@[simp] theorem State.placeOpcode_st (s : State) (a : Nat) (op : Word) : (s.placeOpcode a op).st = s.st := rfl
@[simp] theorem State.placeOpcode_fb (s : State) (a : Nat) (op : Word) : (s.placeOpcode a op).fb = s.fb := rfl
@[simp] theorem State.placeOpcode_key (s : State) (a : Nat) (op : Word) : (s.placeOpcode a op).key = s.key := rfl
@[simp] theorem State.placeOpcode_redraw (s : State) (a : Nat) (op : Word) : (s.placeOpcode a op).redraw = s.redraw := rfl
@[simp] theorem State.placeOpcode_halted (s : State) (a : Nat) (op : Word) : (s.placeOpcode a op).halted = s.halted := rfl
@[simp] theorem State.placeOpcode_free (s : State) (a : Nat) (op : Word) : (s.placeOpcode a op).free = s.free := rfl

@[simp] theorem State.skipIf_mem (s : State) (c : Bool) : (s.skipIf c).mem = s.mem := rfl
@[simp] theorem State.skipIf_v (s : State) (c : Bool) : (s.skipIf c).v = s.v := rfl
@[simp] theorem State.skipIf_i (s : State) (c : Bool) : (s.skipIf c).i = s.i := rfl
@[simp] theorem State.skipIf_stack (s : State) (c : Bool) : (s.skipIf c).stack = s.stack := rfl
@[simp] theorem State.skipIf_sp (s : State) (c : Bool) : (s.skipIf c).sp = s.sp := rfl
@[simp] theorem State.skipIf_dt (s : State) (c : Bool) : (s.skipIf c).dt = s.dt := rfl
@[simp] theorem State.skipIf_st (s : State) (c : Bool) : (s.skipIf c).st = s.st := rfl
@[simp] theorem State.skipIf_fb (s : State) (c : Bool) : (s.skipIf c).fb = s.fb := rfl
@[simp] theorem State.skipIf_key (s : State) (c : Bool) : (s.skipIf c).key = s.key := rfl
@[simp] theorem State.skipIf_redraw (s : State) (c : Bool) : (s.skipIf c).redraw = s.redraw := rfl
@[simp] theorem State.skipIf_halted (s : State) (c : Bool) : (s.skipIf c).halted = s.halted := rfl
@[simp] theorem State.skipIf_free (s : State) (c : Bool) : (s.skipIf c).free = s.free := rfl

/-! ## Fields an update writes -/

theorem State.advance_pc (s : State) (n : Nat) : (s.advance n).pc = BitVec.ofNat 16 (s.pc.toNat + n) := rfl
theorem State.advance_pc_toNat (s : State) (n : Nat) : (s.advance n).pc.toNat = (s.pc.toNat + n) % 65536 := by
  simp [State.advance]
theorem State.skipIf_pc_toNat (s : State) (c : Bool) :
    (s.skipIf c).pc.toNat = (s.pc.toNat + if c then 4 else 2) % 65536 := by
  simp [State.skipIf, State.advance_pc_toNat]
theorem State.addToI_i_toNat (s : State) (n : Nat) : (s.addToI n).i.toNat = (s.i.toNat + n) % 65536 := by
  simp [State.addToI]
theorem tickTimer_toNat (t : Byte) : (tickTimer t).toNat = t.toNat - 1 := by
  unfold tickTimer
  split
  · rw [BitVec.toNat_ofNat, Nat.mod_eq_of_lt (by omega)]
  · omega
@[simp] theorem State.tick_dt (s : State) : s.tick.dt = tickTimer s.dt := rfl
@[simp] theorem State.tick_st (s : State) : s.tick.st = tickTimer s.st := rfl
@[simp] theorem State.afterFault_halted (s : State) (r : FaultRecord) : (s.afterFault r).halted = some r := rfl
@[simp] theorem State.afterFault_free (s : State) (r : FaultRecord) : (s.afterFault r).free = s.free + 1 := rfl

/-! ## Registers -/

theorem State.getV_eq (s : State) (k : Reg) : s.getV k = s.v.get k := rfl

theorem State.getV_setV (s : State) (x k : Reg) (b : Byte) :
    (s.setV x b).getV k = if k = x then b else s.getV k := by
  simp only [State.getV, State.setV, Vector.get_eq_getElem, Vector.getElem_set, Fin.ext_iff]
  by_cases h : x.val = k.val
  · rw [if_pos h, if_pos h.symm]
  · rw [if_neg h, if_neg (Ne.symm h)]

@[simp] theorem State.getV_setV_self (s : State) (x : Reg) (b : Byte) : (s.setV x b).getV x = b := by
  simp [State.getV_setV]

@[simp] theorem State.getV_setV_ne (s : State) (x k : Reg) (b : Byte) (h : k ≠ x) :
    (s.setV x b).getV k = s.getV k := by
  simp [State.getV_setV, h]

@[simp] theorem State.getV_setFlag_vf (s : State) (b : Bool) : (s.setFlag b).getV Reg.vf = flagByte b :=
  State.getV_setV_self s Reg.vf (flagByte b)

@[simp] theorem State.getV_setFlag_ne (s : State) (k : Reg) (b : Bool) (h : k ≠ Reg.vf) :
    (s.setFlag b).getV k = s.getV k :=
  State.getV_setV_ne s Reg.vf k (flagByte b) h

@[simp] theorem State.getV_advance (s : State) (n : Nat) (k : Reg) : (s.advance n).getV k = s.getV k := rfl
@[simp] theorem State.getV_addToI (s : State) (n : Nat) (k : Reg) : (s.addToI n).getV k = s.getV k := rfl
@[simp] theorem State.getV_tick (s : State) (k : Reg) : s.tick.getV k = s.getV k := rfl
@[simp] theorem State.getV_skipIf (s : State) (c : Bool) (k : Reg) : (s.skipIf c).getV k = s.getV k :=
  rfl

theorem State.getV_fillRegs (s : State) (x k : Reg) (bs : List Byte) :
    (s.fillRegs x bs).getV k = if k.val ≤ x.val then bs.getD k.val 0 else s.getV k := by
  simp [State.getV, State.fillRegs, Vector.get_eq_getElem]

theorem flagByte_toNat (b : Bool) : (flagByte b).toNat = if b then 1 else 0 := by cases b <;> rfl

end Sys2Proof.Machine
end

