-- ==== Sys2Proof/Laws/Ops.lean ====
section
/-! SUPPORT. What each shared operation can do, said once: the access checks, the checked block accesses, the
call stack, the operand forms. -/

namespace Sys2Proof.Machine

/-! ## The access checks (20_memory R39, R40, R41) -/

/-- No address of the block fails its check exactly when the whole check answers none. -/
theorem firstError_eq_none (check : Nat → Option AccessError) (a n : Nat) :
    firstError check a n = none ↔ ∀ k, k < n → check (a + k) = none := by
  induction n generalizing a with
  | zero => simp [firstError]
  | succ n ih =>
    cases h : check a with
    | some e =>
      simp only [firstError, h, reduceCtorEq, false_iff]
      intro hall
      have := hall 0 (Nat.succ_pos n)
      simp [h] at this
    | none =>
      simp only [firstError, h, ih]
      constructor
      · intro hall k hk
        cases k with
        | zero => exact h
        | succ k => have := hall k (by omega); rwa [Nat.add_right_comm] at this
      · intro hall k hk
        have := hall (k + 1) (by omega)
        rwa [← Nat.add_assoc, Nat.add_right_comm] at this

/-- The error answered is that of the first address that fails. -/
theorem firstError_eq_some (check : Nat → Option AccessError) (a n k : Nat) (e : AccessError) (hk : k < n)
    (he : check (a + k) = some e) (hbefore : ∀ j, j < k → check (a + j) = none) :
    firstError check a n = some e := by
  induction n generalizing a k with
  | zero => omega
  | succ n ih =>
    cases k with
    | zero => simp only [Nat.add_zero] at he; simp [firstError, he]
    | succ k =>
      have h0 := hbefore 0 (Nat.succ_pos k)
      simp only [Nat.add_zero] at h0
      simp only [firstError, h0]
      refine ih (a + 1) k (by omega) (by rwa [Nat.add_right_comm, Nat.add_assoc]) (fun j hj => ?_)
      have := hbefore (j + 1) (by omega)
      rwa [Nat.add_right_comm, Nat.add_assoc]

theorem readCheck_eq_none (a : Nat) : readCheck a = none ↔ a ≤ 0xFFF := by
  unfold readCheck; split_ifs <;> simp_all

theorem writeCheck_fault_eq_none (a : Nat) : writeCheck .fault a = none ↔ 0x1FF < a ∧ a ≤ 0xFFF := by
  unfold writeCheck; split_ifs <;> simp_all

/-- A read whose block is in memory answers its bytes. -/
theorem memRead_ok (s : State) (a n : Nat) (h : n = 0 ∨ a + n ≤ 0x1000) :
    memRead s a n = .ok (s.mem.readBytes a n) := by
  have : firstError readCheck a n = none :=
    (firstError_eq_none _ _ _).mpr (fun k hk => (readCheck_eq_none _).mpr (by omega))
  simp [memRead, this]

/-- A read whose block leaves memory answers its lowest address above 0xFFF. -/
theorem memRead_error (s : State) (a n : Nat) (hn : n ≠ 0) (h : a + n > 0x1000) :
    memRead s a n = .error (.bounds (max a 0x1000)) := by
  have : firstError readCheck a n = some (.bounds (max a 0x1000)) := by
    refine firstError_eq_some _ a n (max a 0x1000 - a) _ (by omega) ?_
      (fun j hj => (readCheck_eq_none _).mpr (by omega))
    have e : a + (max a 0x1000 - a) = max a 0x1000 := by omega
    rw [e, readCheck, if_pos (by omega)]
  simp [memRead, this]

/-- A write whose block is in memory and above the reserved range changes those bytes alone. -/
theorem memWrite_ok (s : State) (a : Nat) (bs : List Byte) (h : bs = [] ∨ (0x1FF < a ∧ a + bs.length ≤ 0x1000)) :
    memWrite .fault s a bs = .ok { s with mem := s.mem.writeBytes a bs } := by
  have : firstError (writeCheck .fault) a bs.length = none := by
    refine (firstError_eq_none _ _ _).mpr (fun k hk => (writeCheck_fault_eq_none _).mpr ?_)
    rcases h with rfl | h
    · simp at hk
    · omega
  simp [memWrite, this]

/-- A write that starts in the reserved range answers its first address. -/
theorem memWrite_reserved (s : State) (a : Nat) (bs : List Byte) (hn : bs ≠ []) (h : a ≤ 0x1FF) :
    memWrite .fault s a bs = .error (.reserved a) := by
  have hl : 0 < bs.length := List.length_pos_iff.mpr hn
  have : firstError (writeCheck .fault) a bs.length = some (.reserved a) := by
    refine firstError_eq_some _ a _ 0 _ hl ?_ (fun j hj => absurd hj (Nat.not_lt_zero j))
    rw [Nat.add_zero, writeCheck, if_neg (by omega), if_pos ⟨h, rfl⟩]
  simp [memWrite, this]

/-- A write that starts above the reserved range and leaves memory answers its lowest address above 0xFFF. -/
theorem memWrite_bounds (s : State) (a : Nat) (bs : List Byte) (h1 : 0x1FF < a) (hn : bs ≠ [])
    (h2 : a + bs.length > 0x1000) : memWrite .fault s a bs = .error (.bounds (max a 0x1000)) := by
  have hl : 0 < bs.length := List.length_pos_iff.mpr hn
  have : firstError (writeCheck .fault) a bs.length = some (.bounds (max a 0x1000)) := by
    refine firstError_eq_some _ a _ (max a 0x1000 - a) _ (by omega) ?_
      (fun j hj => (writeCheck_fault_eq_none _).mpr (by omega))
    have e : a + (max a 0x1000 - a) = max a 0x1000 := by omega
    rw [e, writeCheck, if_pos (by omega)]
  simp [memWrite, this]

/-- Whatever the policy, a write that is carried out stays in memory and changes memory alone. -/
theorem memWrite_eq_ok (p : ReservedWrite) (s t : State) (a : Nat) (bs : List Byte)
    (h : memWrite p s a bs = .ok t) :
    t = { s with mem := s.mem.writeBytes a bs } ∧ (bs = [] ∨ a + bs.length ≤ 0x1000) ∧
      (p = .fault → bs = [] ∨ 0x1FF < a) := by
  unfold memWrite at h
  split at h
  · cases h
  · rename_i hn
    cases h
    have hc := (firstError_eq_none _ _ _).mp hn
    refine ⟨rfl, ?_, fun hp => ?_⟩
    · rcases List.eq_nil_or_concat bs with rfl | ⟨l, b, rfl⟩
      · exact .inl rfl
      · right
        have := hc l.length (by simp)
        unfold writeCheck at this
        simp only [List.concat_eq_append, List.length_append, List.length_singleton]
        split_ifs at this
        omega
    · subst hp
      cases bs with
      | nil => exact .inl rfl
      | cons b bs =>
        right
        have := (writeCheck_fault_eq_none _).mp (hc 0 (by simp))
        omega

/-- A read that is carried out answers the block's bytes. -/
theorem memRead_eq_ok (s : State) (a n : Nat) (bs : List Byte) (h : memRead s a n = .ok bs) :
    bs = s.mem.readBytes a n := by
  unfold memRead at h
  split at h <;> cases h
  rfl

/-- A read is refused for one reason alone: an address above 0xFFF. -/
theorem memRead_eq_error (s : State) (a n : Nat) (e : AccessError) (h : memRead s a n = .error e) :
    ∃ b, e = .bounds b := by
  by_cases hb : n = 0 ∨ a + n ≤ 0x1000
  · rw [memRead_ok s a n hb] at h; cases h
  · rw [memRead_error s a n (by omega) (by omega)] at h; cases h; exact ⟨_, rfl⟩

/-! ## The call stack (10_state R22, R23) -/

theorem State.push_eq_none (s : State) (a : Word) : s.push a = none ↔ s.sp.val = 16 := by
  have := s.sp.isLt
  unfold State.push; split_ifs <;> simp <;> omega

/-- A push writes the entry at SP and raises SP by one. -/
theorem State.push_eq_some (s t : State) (a : Word) (h : s.push a = some t) :
    ∃ hs : s.sp.val < 16,
      t = { s with stack := s.stack.set s.sp.val a, sp := ⟨s.sp.val + 1, by omega⟩ } := by
  unfold State.push at h
  split_ifs at h with hs
  · exact ⟨hs, (Option.some.inj h).symm⟩

theorem State.pop_eq_none (s : State) : s.pop = none ↔ s.sp.val = 0 := by
  unfold State.pop; split_ifs <;> simp_all

/-- A pop answers the entry below SP and lowers SP by one; the entry stays. -/
theorem State.pop_eq_some (s t : State) (a : Word) (h : s.pop = some (a, t)) :
    ∃ k : Fin 16, k.val + 1 = s.sp.val ∧ a = s.stack.get k ∧ t = { s with sp := ⟨k.val, by omega⟩ } := by
  have hlt := s.sp.isLt
  unfold State.pop at h
  split_ifs at h with hs
  obtain ⟨rfl, rfl⟩ := Prod.mk.inj (Option.some.inj h)
  exact ⟨⟨s.sp.val - 1, by omega⟩, by simp; omega, rfl, rfl⟩

/-! ## Operand forms -/

theorem absolute_toNat (nnn : Addr12) : (absolute nnn).toNat = nnn.toNat := by
  have := nnn.isLt
  simp [absolute]; omega

theorem State.offsetTarget_toNat (s : State) (nnn : Addr12) :
    (s.offsetTarget nnn).toNat = nnn.toNat + (s.getV 0).toNat := by
  have := nnn.isLt
  have := (s.getV 0).isLt
  simp [State.offsetTarget]; omega

theorem glyphAddr_toNat (b : Byte) : (glyphAddr b).toNat = b.toNat % 16 * 5 := by
  simp [glyphAddr]; omega

theorem State.keyOperand_ok (s : State) (x : Reg) (k : Fin 16) (h : k.val = (s.getV x).toNat) :
    s.keyOperand x = .ok k := by
  have hk : (s.getV x).toNat < 16 := h ▸ k.isLt
  simp only [State.keyOperand, hk, dif_pos]
  exact congrArg _ (Fin.ext h.symm)

theorem State.keyOperand_error (s : State) (x : Reg) (h : (s.getV x).toNat > 15) :
    s.keyOperand x = .error (s.getV x) := by
  rw [State.keyOperand, dif_neg (by omega)]

theorem State.lowestKey_eq_none (s : State) : s.lowestKey = none ↔ ∀ k, s.key.get k = false := by
  simp [State.lowestKey, State.keyDown]

/-- The lowest pressed key is pressed, and no key below it is. -/
theorem State.lowestKey_eq_some (s : State) (k : Fin 16) :
    s.lowestKey = some k ↔ s.key.get k = true ∧ ∀ j, j < k → s.key.get j = false := by
  simp only [State.lowestKey, State.keyDown, List.find?_eq_some_iff_getElem, List.getElem_finRange]
  constructor
  · rintro ⟨hk, i, hi, rfl, hj⟩
    refine ⟨hk, fun j hlt => ?_⟩
    have := hj j.val hlt
    simpa using this
  · rintro ⟨hk, hj⟩
    refine ⟨hk, k.val, by simp, rfl, fun j hlt => ?_⟩
    have := hj ⟨j, by omega⟩ hlt
    simpa using this

@[simp] theorem length_bcdDigits (b : Byte) : (bcdDigits b).length = 3 := rfl

@[simp] theorem State.length_dumpRegs (s : State) (x : Reg) : (s.dumpRegs x).length = x.val + 1 := by
  simp [State.dumpRegs]

theorem State.getD_dumpRegs (s : State) (x k : Reg) (h : k.val ≤ x.val) :
    (s.dumpRegs x).getD k.val 0 = s.getV k := by
  have := k.isLt
  simp [State.dumpRegs, State.getV, Vector.get_eq_getElem, List.getD, Nat.lt_succ_of_le h]

end Sys2Proof.Machine
end

