-- ==== Sys2Proof/Laws/Cycle.lean ====
section
/-! SUPPORT. What one step can do, said once (30_encoding R55), and that the placed opcode is the one fetched. -/

namespace Sys2Proof.Machine

/-- A step that answers a next state fetched nothing, decoded nothing, or ran the decoded instruction. -/
theorem step_cases (s t : State) (h : step s = .next t) :
    s.halted = none ∧
      ((s.fetch = none ∧ t = s.afterFault (.outOfBoundsFetch s.pc)) ∨
        ∃ op, s.fetch = some op ∧
          ((∃ e, decode op = .error e ∧ t = s.afterFault (.unknownOpcode op s.pc)) ∨
            ∃ i u, decode op = .ok i ∧ exec i s = .next u ∧
              t = if u.halted.isSome then u else u.tick)) := by
  unfold step cycle at h
  split at h
  · cases h
  · rename_i hrun
    refine ⟨hrun, ?_⟩
    split at h
    · rename_i hf
      exact .inl ⟨hf, (Host.Outcome.next.inj h).symm⟩
    · rename_i op hf
      refine .inr ⟨op, hf, ?_⟩
      unfold runOpcode at h
      split at h
      · rename_i e he
        exact .inl ⟨e, he, (Host.Outcome.next.inj h).symm⟩
      · rename_i i hi
        refine .inr ⟨i, ?_⟩
        cases hx : exec i s with
        | next u =>
          rw [hx] at h
          refine ⟨u, hi, rfl, ?_⟩
          have := Host.Outcome.next.inj h
          simpa [finish, Config.params] using this.symm
        | fault r => rw [hx] at h; cases h
        | refused r => rw [hx] at h; cases h

/-- A running core that fetches and decodes runs the instruction and then, if it raised no fault, ticks. -/
theorem step_of_decode (s u : State) (op : Word) (i : Instr) (hrun : s.halted = none)
    (hf : s.fetch = some op) (hd : decode op = .ok i) (hx : exec i s = .next u) :
    step s = .next (if u.halted.isSome then u else u.tick) := by
  unfold step cycle runOpcode
  rw [hrun, hf]
  simp [hd, hx, finishOutcome, finish, Config.params]

/-! ## REDRAW is read by no part of a step (10_state R27, R31) -/

@[simp] theorem State.setRedraw_fetch (s : State) (b : Bool) : (s.setRedraw b).fetch = s.fetch := rfl
@[simp] theorem State.setRedraw_afterFault (s : State) (b : Bool) (r : FaultRecord) :
    (s.setRedraw b).afterFault r = s.afterFault r := rfl
@[simp] theorem memRead_setRedraw (s : State) (b : Bool) (a n : Nat) :
    memRead (s.setRedraw b) a n = memRead s a n := rfl
@[simp] theorem State.setRedraw_dataAddr (s : State) (b : Bool) : (s.setRedraw b).dataAddr = s.dataAddr := rfl
@[simp] theorem State.setRedraw_keyOperand (s : State) (b : Bool) (x : Reg) :
    (s.setRedraw b).keyOperand x = s.keyOperand x := rfl
@[simp] theorem State.setRedraw_lowestKey (s : State) (b : Bool) : (s.setRedraw b).lowestKey = s.lowestKey := rfl
@[simp] theorem State.setRedraw_dumpRegs (s : State) (b : Bool) (x : Reg) :
    (s.setRedraw b).dumpRegs x = s.dumpRegs x := rfl

/-- A checked write succeeds or fails whatever REDRAW is, and leaves it. -/
theorem memWrite_setRedraw (p : ReservedWrite) (s : State) (b : Bool) (a : Nat) (bs : List Byte) :
    memWrite p (s.setRedraw b) a bs = (memWrite p s a bs).map (fun t => t.setRedraw b) := by
  unfold memWrite
  split <;> rfl

theorem State.push_setRedraw (s : State) (b : Bool) (a : Word) :
    (s.setRedraw b).push a = (s.push a).map (fun t => t.setRedraw b) := by
  unfold State.push
  by_cases h : s.sp.val < 16 <;> simp [h, State.setRedraw]

theorem State.pop_setRedraw (s : State) (b : Bool) :
    (s.setRedraw b).pop = s.pop.map (fun p => (p.1, p.2.setRedraw b)) := by
  unfold State.pop
  by_cases h : s.sp.val = 0 <;> simp [h, State.setRedraw]

/-! ## Placing an opcode -/

/-- The opcode that `withFetchOpcode` places is the one the next fetch reads. -/
theorem State.fetch_withFetchOpcode (s : State) (op : Word) : (s.withFetchOpcode op).fetch = some op := by
  have hb : ¬s.fetchPlace.toNat + 1 > 0xFFF := by
    unfold State.fetchPlace; split_ifs with h
    · decide
    · exact h
  have hne : ¬s.fetchPlace.toNat + 1 = s.fetchPlace.toNat := by omega
  simp only [State.fetch, State.withFetchOpcode, State.placeOpcode, hb, if_false, Memory.writeBytes,
    Memory.read_write_self]
  rw [Memory.read_write_ne _ _ _ _ (by omega), Memory.read_write_self, opcodeOf_bytes]

end Sys2Proof.Machine
end

