-- ==== Sys2Proof/Laws/Display.lean ====
section
/-! SUPPORT. The laws of the framebuffer: a pixel after a toggle and after a clear, and what one
sprite bit, a sprite row and a whole clipped sprite do to the pixels and to the collision flag. -/

namespace Sys2Proof.Machine

theorem Framebuffer.pixel_toggle (fb : Framebuffer) (px py qx qy : Nat) (hx : px < 64) (hy : py < 32) :
    (fb.toggle px py).pixel qx qy = (fb.pixel qx qy ^^ (decide (qx = px) && decide (qy = py))) := by
  unfold Framebuffer.toggle Framebuffer.pixel
  rw [dif_pos hy]
  by_cases hq : qy < 32
  · rw [dif_pos hq, dif_pos hq, Vector.getElem_set]
    by_cases e : py = qy
    · subst e
      simp [BitVec.getLsbD_twoPow, hx, eq_comm]
    · simp [e, show ¬qy = py by omega]
  · rw [dif_neg hq, dif_neg hq]
    simp [show ¬qy = py by omega]

@[simp] theorem Framebuffer.pixel_clear (qx qy : Nat) : Framebuffer.clear.pixel qx qy = false := by
  unfold Framebuffer.clear Framebuffer.pixel
  split <;> simp

/-- A place off the grid holds no pixel. -/
theorem Framebuffer.pixel_off_grid (fb : Framebuffer) (px py : Nat) (h : 64 ≤ px ∨ 32 ≤ py) :
    fb.pixel px py = false := by
  unfold Framebuffer.pixel
  split
  · exact BitVec.getLsbD_of_ge _ _ (by omega)
  · rfl

/-- Two framebuffers with the same pixels are the same. -/
theorem Framebuffer.ext_pixel (f g : Framebuffer)
    (h : ∀ px py, px < 64 → py < 32 → f.pixel px py = g.pixel px py) : f = g := by
  apply Vector.ext
  intro py hy
  apply BitVec.eq_of_getLsbD_eq
  intro px hx
  have := h px py hx hy
  simpa [Framebuffer.pixel, hy] using this

/-! ## One sprite bit (42_display R82) -/

theorem drawPixel_clip (px py : Nat) (d : Draw) :
    drawPixel .clip px py d = if px < 64 ∧ py < 32 then
      { fb := d.fb.toggle px py, collision := d.collision || d.fb.pixel px py } else d := rfl

/-- A clipped sprite bit toggles its own pixel if it is on the grid, and no other. -/
theorem drawPixel_clip_pixel (px py qx qy : Nat) (d : Draw) (hq : qx < 64 ∧ qy < 32) :
    (drawPixel .clip px py d).fb.pixel qx qy =
      (d.fb.pixel qx qy ^^ (decide (qx = px) && decide (qy = py))) := by
  rw [drawPixel_clip]
  split_ifs with h
  · exact Framebuffer.pixel_toggle d.fb px py qx qy h.1 h.2
  · have : ¬(qx = px ∧ qy = py) := fun e => h (by omega)
    by_cases e : qx = px <;> simp_all

theorem drawPixel_clip_collision (px py : Nat) (d : Draw) :
    (drawPixel .clip px py d).collision =
      (d.collision || (decide (px < 64 ∧ py < 32) && d.fb.pixel px py)) := by
  rw [drawPixel_clip]
  split_ifs with h <;> simp [h]

/-! ## Sprite rows (42_display R82) -/

/-- The first `n` columns of a clipped sprite row toggle the pixels of its set bits in row `py`, and no other. -/
theorem drawColumns_clip_pixel (x0 py n qx qy : Nat) (row : Byte) (d : Draw) (hq : qx < 64 ∧ qy < 32) :
    ((List.range n).foldl
      (fun d c => if row.getLsbD (7 - c) then drawPixel .clip (x0 + c) py d else d) d).fb.pixel qx qy =
      (d.fb.pixel qx qy ^^
        decide (qy = py ∧ x0 ≤ qx ∧ qx < x0 + n ∧ row.getLsbD (7 - (qx - x0)) = true)) := by
  induction n with
  | zero =>
    have : ¬(qy = py ∧ x0 ≤ qx ∧ qx < x0 + 0 ∧ row.getLsbD (7 - (qx - x0)) = true) := by omega
    rw [decide_eq_false this]; simp
  | succ n ih =>
    rw [List.range_succ, List.foldl_append, List.foldl_cons, List.foldl_nil]
    by_cases hb : row.getLsbD (7 - n) = true
    · rw [if_pos hb, drawPixel_clip_pixel _ _ _ _ _ hq, ih, Bool.xor_assoc]
      congr 1
      by_cases e : qx = x0 + n
      · subst e; simp [hb]
      · have : (qx < x0 + (n + 1)) ↔ (qx < x0 + n) := by omega
        simp [e, this]
    · rw [if_neg hb, ih]
      congr 1
      by_cases e : qx = x0 + n
      · subst e; simp [hb]
      · have : (qx < x0 + (n + 1)) ↔ (qx < x0 + n) := by omega
        simp [this]

/-- Their collision: a set bit of the row falls on the grid where the pixel was set. -/
theorem drawColumns_clip_collision (x0 py n : Nat) (row : Byte) (d : Draw) :
    ((List.range n).foldl
      (fun d c => if row.getLsbD (7 - c) then drawPixel .clip (x0 + c) py d else d) d).collision = true ↔
      d.collision = true ∨
        ∃ c, c < n ∧ row.getLsbD (7 - c) = true ∧ x0 + c < 64 ∧ py < 32 ∧ d.fb.pixel (x0 + c) py = true := by
  induction n with
  | zero => simp
  | succ n ih =>
    rw [List.range_succ, List.foldl_append, List.foldl_cons, List.foldl_nil]
    have split : ∀ p : Nat → Prop, (∃ c, c < n + 1 ∧ p c) ↔ ((∃ c, c < n ∧ p c) ∨ p n) := fun p =>
      ⟨fun ⟨c, hc, hp⟩ => by
          rcases Nat.lt_succ_iff_lt_or_eq.mp hc with h | rfl
          · exact .inl ⟨c, h, hp⟩
          · exact .inr hp,
        fun h => by
          rcases h with ⟨c, hc, hp⟩ | hp
          · exact ⟨c, by omega, hp⟩
          · exact ⟨n, by omega, hp⟩⟩
    rw [split, ← or_assoc, ← ih]
    by_cases hb : row.getLsbD (7 - n) = true
    · rw [if_pos hb, drawPixel_clip_collision]
      by_cases hg : x0 + n < 64 ∧ py < 32
      · rw [drawColumns_clip_pixel _ _ _ _ _ _ _ hg]
        simp [hb, hg]
      · simp only [hg, decide_false, Bool.false_and, Bool.or_false]
        refine ⟨.inl, fun h => h.resolve_right fun h => hg ⟨h.2.1, h.2.2.1⟩⟩
    · rw [if_neg hb]
      simp [hb]

/-- A clipped sprite row toggles the pixels of its set bits in row `py`, and no other. -/
theorem drawRow_clip_pixel (x0 py qx qy : Nat) (row : Byte) (d : Draw) (hq : qx < 64 ∧ qy < 32) :
    (drawRow .clip x0 py row d).fb.pixel qx qy = (d.fb.pixel qx qy ^^
      decide (qy = py ∧ x0 ≤ qx ∧ qx < x0 + 8 ∧ row.getLsbD (7 - (qx - x0)) = true)) :=
  drawColumns_clip_pixel x0 py 8 qx qy row d hq

/-- Its collision. -/
theorem drawRow_clip_collision (x0 py : Nat) (row : Byte) (d : Draw) :
    (drawRow .clip x0 py row d).collision = true ↔ d.collision = true ∨
      ∃ c, c < 8 ∧ row.getLsbD (7 - c) = true ∧ x0 + c < 64 ∧ py < 32 ∧ d.fb.pixel (x0 + c) py = true :=
  drawColumns_clip_collision x0 py 8 row d

/-! ## Whole sprites (42_display R82) -/

/-- A clipped sprite toggles the pixels of its set bits, and no other. -/
theorem drawRows_clip_pixel (x0 py qx qy : Nat) (rows : List Byte) (d : Draw) (hq : qx < 64 ∧ qy < 32) :
    (drawRows .clip x0 py rows d).fb.pixel qx qy = (d.fb.pixel qx qy ^^
      decide (py ≤ qy ∧ qy < py + rows.length ∧ x0 ≤ qx ∧ qx < x0 + 8 ∧
        (rows.getD (qy - py) 0).getLsbD (7 - (qx - x0)) = true)) := by
  induction rows generalizing py d with
  | nil => simp [drawRows]
  | cons row rows ih =>
    rw [drawRows, ih, drawRow_clip_pixel _ _ _ _ _ _ hq, Bool.xor_assoc]
    congr 1
    rcases Nat.lt_trichotomy qy py with h | rfl | h
    · simp [show ¬py + 1 ≤ qy by omega, show ¬py ≤ qy by omega, show ¬qy = py by omega]
    · simp
    · obtain ⟨k, rfl⟩ : ∃ k, qy = py + 1 + k := ⟨qy - py - 1, by omega⟩
      have e : py + 1 + k - py = k + 1 := by omega
      have e' : py + 1 + k - (py + 1) = k := by omega
      have l : (py + 1 + k < py + 1 + rows.length) ↔ (k < rows.length) := by omega
      have l' : (py + 1 + k < py + (rows.length + 1)) ↔ (k < rows.length) := by omega
      simp only [e, e', List.length_cons, l, l', List.getD_cons_succ]
      simp [show ¬py + 1 + k = py by omega, show py ≤ py + 1 + k by omega, show py + 1 ≤ py + 1 + k by omega]

/-- Its collision: a set bit of the sprite falls on the grid where the pixel was set before the draw. -/
theorem drawRows_clip_collision (x0 py : Nat) (rows : List Byte) (d : Draw) :
    (drawRows .clip x0 py rows d).collision = true ↔ d.collision = true ∨
      ∃ k c, k < rows.length ∧ c < 8 ∧ (rows.getD k 0).getLsbD (7 - c) = true ∧
        x0 + c < 64 ∧ py + k < 32 ∧ d.fb.pixel (x0 + c) (py + k) = true := by
  induction rows generalizing py d with
  | nil => simp [drawRows]
  | cons row rows ih =>
    rw [drawRows, ih, drawRow_clip_collision, or_assoc]
    refine or_congr Iff.rfl ⟨?_, ?_⟩
    · rintro (⟨c, hc, hb, hx, hy, hp⟩ | ⟨k, c, hk, hc, hb, hx, hy, hp⟩)
      · exact ⟨0, c, by simp, hc, by simpa using hb, hx, hy, hp⟩
      · rw [drawRow_clip_pixel _ _ _ _ _ _ ⟨hx, hy⟩] at hp
        refine ⟨k + 1, c, by simpa using hk, hc, by simpa using hb, hx, by omega, ?_⟩
        rw [show py + (k + 1) = py + 1 + k by omega]
        simpa [show ¬py + 1 + k = py by omega] using hp
    · rintro ⟨k, c, hk, hc, hb, hx, hy, hp⟩
      cases k with
      | zero => exact .inl ⟨c, hc, by simpa using hb, hx, hy, hp⟩
      | succ k =>
        refine .inr ⟨k, c, by simpa using hk, hc, by simpa using hb, hx, by omega, ?_⟩
        rw [drawRow_clip_pixel _ _ _ _ _ _ ⟨hx, by omega⟩]
        rw [show py + (k + 1) = py + 1 + k by omega] at hp
        simpa [show ¬py + 1 + k = py by omega] using hp

end Sys2Proof.Machine
end

