-- ==== Sys2Proof/Laws/Host.lean ====
section
/-! SUPPORT. What the host's operations answer (60_exceptions R112): the step and the load in each of their
outcomes, the three reads, and when two states show the host the same. -/

namespace Sys2Proof.Machine

/-- Where the machine has a step, the host's step answers its result. -/
theorem hostStep_of_next (s t : State) (h : step s = .next t) : hostStep s = some (.stepped t.halted, t) := by
  unfold hostStep
  rw [h]
  rfl

/-- Where the machine has none, neither has the host. -/
theorem hostStep_of_fault (s : State) (r : Fault) (h : step s = .fault r) : hostStep s = none := by
  unfold hostStep
  rw [h]

theorem hostLoad_fits (bytes : List Byte) (s : State) (h : bytes.length ≤ 3584) :
    hostLoad bytes s = .loaded { s with mem := s.mem.writeBytes 0x200 bytes } := if_neg (by simpa using h)

theorem hostLoad_too_large (bytes : List Byte) (s : State) (h : bytes.length > 3584) :
    hostLoad bytes s = .programTooLarge bytes.length := if_pos (by simpa using h)

@[simp] theorem hostDo_readFramebuffer (s : State) :
    hostDo .readFramebuffer s = some (.pixels (hostReadFramebuffer s), s) := rfl

@[simp] theorem hostDo_takeRedraw (s : State) : hostDo .takeRedraw s = some (.redraw s.redraw, s.setRedraw false) := rfl

@[simp] theorem hostDo_readTimers (s : State) : hostDo .readTimers s = some (.timers s.dt s.st, s) := rfl

/-- Two states show the host the same when their pixels, REDRAW and timers are the same. -/
theorem hostView_eq_iff (s u : State) : hostView s = hostView u ↔
    hostReadFramebuffer s = hostReadFramebuffer u ∧ s.redraw = u.redraw ∧ s.dt = u.dt ∧ s.st = u.st := by
  unfold hostView
  rw [HostView.mk.injEq]

end Sys2Proof.Machine
end

