-- ==== Sys2Proof/Laws/PerInstr.lean ====
section
/-! SUPPORT. The family TableRow: the opcode of an instruction has the fixed bits that spec/opcode_table.json
gives its row, whatever its operands. One lemma for each constructor. -/

namespace Sys2Proof.Laws.TableRow

open Sys2Proof

/-- The `match` column of spec/opcode_table.json. -/
def rowMatch : Instr → Nat
  | .sys _ => 0x0000
  | .cls => 0x00E0
  | .ret => 0x00EE
  | .jp _ => 0x1000
  | .call _ => 0x2000
  | .seImm _ _ => 0x3000
  | .sneImm _ _ => 0x4000
  | .seReg _ _ => 0x5000
  | .ldImm _ _ => 0x6000
  | .addImm _ _ => 0x7000
  | .ldReg _ _ => 0x8000
  | .orReg _ _ => 0x8001
  | .andReg _ _ => 0x8002
  | .xorReg _ _ => 0x8003
  | .addReg _ _ => 0x8004
  | .subReg _ _ => 0x8005
  | .shr _ _ => 0x8006
  | .subnReg _ _ => 0x8007
  | .shl _ _ => 0x800E
  | .sneReg _ _ => 0x9000
  | .ldI _ => 0xA000
  | .jpV0 _ => 0xB000
  | .rnd _ _ => 0xC000
  | .drw _ _ _ => 0xD000
  | .skp _ => 0xE09E
  | .sknp _ => 0xE0A1
  | .ldVxDt _ => 0xF007
  | .ldVxKey _ => 0xF00A
  | .ldDtVx _ => 0xF015
  | .ldStVx _ => 0xF018
  | .addI _ => 0xF01E
  | .ldFont _ => 0xF029
  | .ldBcd _ => 0xF033
  | .storeRegs _ => 0xF055
  | .loadRegs _ => 0xF065

/-- The operand bits of an instruction, as the number they add to the match. -/
def operandBits : Instr → Nat
  | .cls | .ret => 0
  | .sys nnn | .jp nnn | .call nnn | .ldI nnn | .jpV0 nnn => nnn.toNat
  | .seImm x nn | .sneImm x nn | .ldImm x nn | .addImm x nn | .rnd x nn => x.val * 256 + nn.toNat
  | .seReg x y | .sneReg x y | .ldReg x y | .orReg x y | .andReg x y | .xorReg x y => x.val * 256 + y.val * 16
  | .addReg x y | .subReg x y | .shr x y | .subnReg x y | .shl x y => x.val * 256 + y.val * 16
  | .drw x y n => x.val * 256 + y.val * 16 + n.toNat
  | .skp x | .sknp x | .ldVxDt x | .ldVxKey x | .ldDtVx x | .ldStVx x => x.val * 256
  | .addI x | .ldFont x | .ldBcd x | .storeRegs x | .loadRegs x => x.val * 256

/-- The opcode is the row's match plus the operand bits. -/
def Statement (i : Instr) : Prop := (encode i).toNat = rowMatch i + operandBits i

theorem sys (nnn : Addr12) : Statement (.sys nnn) := by
  simp [Statement, encode, wordNNN_toNat, rowMatch, operandBits]
theorem cls : Statement .cls := rfl
theorem ret : Statement .ret := rfl
theorem jp (nnn : Addr12) : Statement (.jp nnn) := by
  simp [Statement, encode, wordNNN_toNat, rowMatch, operandBits]
theorem call (nnn : Addr12) : Statement (.call nnn) := by
  simp [Statement, encode, wordNNN_toNat, rowMatch, operandBits]
theorem seImm (x : Reg) (nn : Byte) : Statement (.seImm x nn) := by
  simp [Statement, encode, wordXNN_toNat, rowMatch, operandBits]; omega
theorem sneImm (x : Reg) (nn : Byte) : Statement (.sneImm x nn) := by
  simp [Statement, encode, wordXNN_toNat, rowMatch, operandBits]; omega
theorem seReg (x y : Reg) : Statement (.seReg x y) := by
  simp [Statement, encode, wordXYN_toNat, rowMatch, operandBits]; omega
theorem ldImm (x : Reg) (nn : Byte) : Statement (.ldImm x nn) := by
  simp [Statement, encode, wordXNN_toNat, rowMatch, operandBits]; omega
theorem addImm (x : Reg) (nn : Byte) : Statement (.addImm x nn) := by
  simp [Statement, encode, wordXNN_toNat, rowMatch, operandBits]; omega
theorem ldReg (x y : Reg) : Statement (.ldReg x y) := by
  simp [Statement, encode, wordXYN_toNat, rowMatch, operandBits]; omega
theorem orReg (x y : Reg) : Statement (.orReg x y) := by
  simp [Statement, encode, wordXYN_toNat, rowMatch, operandBits]; omega
theorem andReg (x y : Reg) : Statement (.andReg x y) := by
  simp [Statement, encode, wordXYN_toNat, rowMatch, operandBits]; omega
theorem xorReg (x y : Reg) : Statement (.xorReg x y) := by
  simp [Statement, encode, wordXYN_toNat, rowMatch, operandBits]; omega
theorem addReg (x y : Reg) : Statement (.addReg x y) := by
  simp [Statement, encode, wordXYN_toNat, rowMatch, operandBits]; omega
theorem subReg (x y : Reg) : Statement (.subReg x y) := by
  simp [Statement, encode, wordXYN_toNat, rowMatch, operandBits]; omega
theorem shr (x y : Reg) : Statement (.shr x y) := by
  simp [Statement, encode, wordXYN_toNat, rowMatch, operandBits]; omega
theorem subnReg (x y : Reg) : Statement (.subnReg x y) := by
  simp [Statement, encode, wordXYN_toNat, rowMatch, operandBits]; omega
theorem shl (x y : Reg) : Statement (.shl x y) := by
  simp [Statement, encode, wordXYN_toNat, rowMatch, operandBits]; omega
theorem sneReg (x y : Reg) : Statement (.sneReg x y) := by
  simp [Statement, encode, wordXYN_toNat, rowMatch, operandBits]; omega
theorem ldI (nnn : Addr12) : Statement (.ldI nnn) := by
  simp [Statement, encode, wordNNN_toNat, rowMatch, operandBits]
theorem jpV0 (nnn : Addr12) : Statement (.jpV0 nnn) := by
  simp [Statement, encode, wordNNN_toNat, rowMatch, operandBits]
theorem rnd (x : Reg) (nn : Byte) : Statement (.rnd x nn) := by
  simp [Statement, encode, wordXNN_toNat, rowMatch, operandBits]; omega
theorem drw (x y : Reg) (n : Nibble) : Statement (.drw x y n) := by
  simp [Statement, encode, wordXYN_toNat, rowMatch, operandBits]; omega
theorem skp (x : Reg) : Statement (.skp x) := by
  simp [Statement, encode, wordXNN_toNat, rowMatch, operandBits]; omega
theorem sknp (x : Reg) : Statement (.sknp x) := by
  simp [Statement, encode, wordXNN_toNat, rowMatch, operandBits]; omega
theorem ldVxDt (x : Reg) : Statement (.ldVxDt x) := by
  simp [Statement, encode, wordXNN_toNat, rowMatch, operandBits]; omega
theorem ldVxKey (x : Reg) : Statement (.ldVxKey x) := by
  simp [Statement, encode, wordXNN_toNat, rowMatch, operandBits]; omega
theorem ldDtVx (x : Reg) : Statement (.ldDtVx x) := by
  simp [Statement, encode, wordXNN_toNat, rowMatch, operandBits]; omega
theorem ldStVx (x : Reg) : Statement (.ldStVx x) := by
  simp [Statement, encode, wordXNN_toNat, rowMatch, operandBits]; omega
theorem addI (x : Reg) : Statement (.addI x) := by
  simp [Statement, encode, wordXNN_toNat, rowMatch, operandBits]; omega
theorem ldFont (x : Reg) : Statement (.ldFont x) := by
  simp [Statement, encode, wordXNN_toNat, rowMatch, operandBits]; omega
theorem ldBcd (x : Reg) : Statement (.ldBcd x) := by
  simp [Statement, encode, wordXNN_toNat, rowMatch, operandBits]; omega
theorem storeRegs (x : Reg) : Statement (.storeRegs x) := by
  simp [Statement, encode, wordXNN_toNat, rowMatch, operandBits]; omega
theorem loadRegs (x : Reg) : Statement (.loadRegs x) := by
  simp [Statement, encode, wordXNN_toNat, rowMatch, operandBits]; omega

end Sys2Proof.Laws.TableRow
end

