-- ==== Sys2Proof/Laws/Runs.lean ====
section
/-! SUPPORT. The laws of runs (70_reset R123): the end of a run, one step of it, a run as a session of steps, and that
a self-jump and a key wait without a key are infinite runs. -/

namespace Sys2Proof.Machine

/-! ## One step of a run -/

@[simp] theorem endsAt_halted (endPc : Option Word) (s : State) (r : FaultRecord) (h : s.halted = some r) :
    endsAt endPc s = some (.faulted r) := by
  unfold endsAt
  rw [h]

@[simp] theorem endsAt_running (endPc : Option Word) (s : State) (h : s.halted = none) :
    endsAt endPc s = if endPc = some s.pc then some .reached else none := by
  unfold endsAt
  rw [h]

/-- A run that has ended takes no step. -/
theorem run_ended (endPc : Option Word) (n : Nat) (s : State) (e : RunEnd) (h : endsAt endPc s = some e) :
    run endPc n s = (e, s) := by
  cases n <;> simp [run, h]

/-- With no step left the host stops. -/
theorem run_zero (endPc : Option Word) (s : State) (h : endsAt endPc s = none) :
    run endPc 0 s = (.hostStopped, s) := by
  simp [run, h]

/-- A run that has not ended goes on from the next state. -/
theorem run_step (endPc : Option Word) (n : Nat) (s t : State) (he : endsAt endPc s = none)
    (h : step s = .next t) : run endPc (n + 1) s = run endPc n t := by
  simp [run, he, hostStep_of_next s t h]

/-- A run that has not ended, of a core with no step, stops. -/
theorem run_stuck (endPc : Option Word) (n : Nat) (s : State) (he : endsAt endPc s = none)
    (h : hostStep s = none) : run endPc n s = (.hostStopped, s) := by
  cases n <;> simp [run, he, h]

/-! ## A run is a session of steps -/

/-- Whatever way a run ends, its last state is the one a number of `step` operations, at most the bound, lead to. -/
theorem run_session (endPc : Option Word) (n : Nat) (s : State) :
    ∃ k answers, k ≤ n ∧ hostSession (List.replicate k .step) s = some (answers, (run endPc n s).2) := by
  induction n generalizing s with
  | zero => exact ⟨0, [], Nat.le_refl 0, rfl⟩
  | succ n ih =>
    cases he : endsAt endPc s with
    | some e => exact ⟨0, [], Nat.zero_le _, by rw [run_ended endPc _ s e he]; rfl⟩
    | none =>
      cases hs : hostStep s with
      | none => exact ⟨0, [], Nat.zero_le _, by rw [run_stuck endPc _ s he hs]; rfl⟩
      | some p =>
        obtain ⟨k, answers, hk, h⟩ := ih p.2
        refine ⟨k + 1, p.1 :: answers, Nat.succ_le_succ hk, ?_⟩
        simp [List.replicate_succ, hostSession, hostDo, hs, h, run, he]

/-! ## Infinite runs: the core has no halt instruction -/

/-- A property of running states that every step keeps is one of runs that end by the host alone. -/
theorem run_of_loop (P : State → Prop)
    (loop : ∀ s, P s → s.halted = none ∧ ∃ t, step s = .next t ∧ P t) (n : Nat) (s : State) (h : P s) :
    ∃ t, run none n s = (.hostStopped, t) ∧ P t := by
  have going : ∀ u, P u → endsAt none u = none := fun u hu => by simp [(loop u hu).1]
  induction n generalizing s with
  | zero => exact ⟨s, run_zero none s (going s h), h⟩
  | succ n ih =>
    obtain ⟨_, t, hs, ht⟩ := loop s h
    rw [run_step none n s t (going s h) hs]
    exact ih t ht

/-- The fetch reads pc and memory alone. -/
theorem State.fetch_congr (s t : State) (hm : t.mem = s.mem) (hp : t.pc = s.pc) : t.fetch = s.fetch := by
  unfold State.fetch
  rw [hm, hp]

/-- A jump to itself is an infinite run: for every number of steps, the host stops it, at the same pc (70_reset R123,
40_control_flow R61). -/
theorem run_selfJump (s : State) (op : Word) (nnn : Addr12) (hrun : s.halted = none) (hf : s.fetch = some op)
    (hd : decode op = .ok (.jp nnn)) (hself : absolute nnn = s.pc) (n : Nat) :
    ∃ t, run none n s = (.hostStopped, t) ∧ t.pc = s.pc := by
  obtain ⟨t, ht, hP⟩ := run_of_loop (fun u => u.halted = none ∧ u.mem = s.mem ∧ u.pc = s.pc)
    (fun u hu => ⟨hu.1, State.tick { u with pc := absolute nnn },
      by rw [step_of_decode u _ op (.jp nnn) hu.1 ((State.fetch_congr s u hu.2.1 hu.2.2).trans hf) hd rfl]
         simp [hu.1],
      hu.1, hu.2.1, hself⟩) n s ⟨hrun, rfl, rfl⟩
  exact ⟨t, ht, hP.2.2⟩

/-- A key wait while no key is pressed is an infinite run (70_reset R123, 43_keys_timers R86). -/
theorem run_keyWait (s : State) (op : Word) (x : Reg) (hrun : s.halted = none) (hf : s.fetch = some op)
    (hd : decode op = .ok (.ldVxKey x)) (hkey : s.lowestKey = none) (n : Nat) :
    ∃ t, run none n s = (.hostStopped, t) ∧ t.pc = s.pc := by
  have wait : ∀ u : State, u.key = s.key → exec (.ldVxKey x) u = .next u := fun u hu => by
    have : u.lowestKey = none := by
      rw [← hkey]
      unfold State.lowestKey State.keyDown
      rw [hu]
    simp only [exec, execLdVxKey, this]
  obtain ⟨t, ht, hP⟩ := run_of_loop (fun u => u.halted = none ∧ u.key = s.key ∧ u.mem = s.mem ∧ u.pc = s.pc)
    (fun u hu => ⟨hu.1, u.tick,
      by rw [step_of_decode u u op _ hu.1 ((State.fetch_congr s u hu.2.2.1 hu.2.2.2).trans hf) hd (wait u hu.2.1)]
         simp [hu.1],
      hu.1, hu.2⟩) n s ⟨hrun, rfl, rfl, rfl⟩
  exact ⟨t, ht, hP.2.2.2⟩

end Sys2Proof.Machine
end

