-- ==== Sys2Proof/Tests/Slice0.lean ====
section
/-! SUPPORT. The model's own tests: the WellFormed smoke, opcodes written out from 30_encoding R50, one step on the
vectors of 95_test_vectors (L1 and L2, whose results are the spec's), and a witness for the hypotheses of every
statement of Certificates/Slice0/Obligations.lean. -/

namespace Sys2Proof.Tests

open Sys2Proof.Machine

/-! ## Helpers -/

/-- One step of `s` with the opcode `w` where it fetches, and a check of the next state. -/
def after (s : State) (w : Nat) (check : State → Bool) : Bool :=
  match step (s.withFetchWord 16 w) with
  | .next t => check t
  | .fault _ => false
  | .refused _ => false

/-- The record that one step on the opcode `w` leaves, if it answers a next state. -/
def recordAfter (s : State) (w : Nat) : Option FaultRecord :=
  match step (s.withFetchWord 16 w) with
  | .next t => t.halted
  | .fault _ => none
  | .refused _ => none

/-- Registers of the launch state of an empty image (70_reset R122), two of them changed. -/
def regs2 (x : Reg) (a : Byte) (y : Reg) (b : Byte) : State := (State.reset.setV x a).setV y b

/-- The launch state of an empty image with I changed. -/
def withI (i : Word) : State := { State.reset with i := i }

/-- The launch state with key `k` pressed. -/
def pressed (k : Fin 16) (s : State) : State := hostSetKey k true s

/-- The launch state with bytes written from `a` up. -/
def poke (a : Nat) (bytes : List Byte) (s : State) : State := { s with mem := s.mem.writeBytes a bytes }

/-- The launch state of an empty image with an opcode at its pc. -/
def launch (w : Nat) : State := State.reset.withFetchWord 16 w

/-! ## WellFormed: 0x00E0 and 0x00EE are no SYS (40_control_flow R59) -/

theorem test_wellFormed_sys_refused : WellFormed (.sys 0x0E0) = false ∧ WellFormed (.sys 0x0EE) = false := by decide
theorem test_wellFormed_sys : WellFormed (.sys 0x1E0) = true ∧ WellFormed (.sys 0x000) = true := by decide

/-! ## Decoding: every constructor's opcode, from the patterns of 30_encoding R50 -/

theorem test_decode_flow :
    decode 0x0234 = .ok (.sys 0x234) ∧ decode 0x00E0 = .ok .cls ∧ decode 0x00EE = .ok .ret ∧
    decode 0x1ABC = .ok (.jp 0xABC) ∧ decode 0x2ABC = .ok (.call 0xABC) ∧ decode 0x3C7E = .ok (.seImm 0xC 0x7E) ∧
    decode 0x4C7E = .ok (.sneImm 0xC 0x7E) ∧ decode 0x5AB0 = .ok (.seReg 0xA 0xB) ∧
    decode 0x9AB0 = .ok (.sneReg 0xA 0xB) ∧ decode 0xB123 = .ok (.jpV0 0x123) := by decide

theorem test_decode_alu :
    decode 0x6D5A = .ok (.ldImm 0xD 0x5A) ∧ decode 0x7D5A = .ok (.addImm 0xD 0x5A) ∧
    decode 0x8AB0 = .ok (.ldReg 0xA 0xB) ∧ decode 0x8AB1 = .ok (.orReg 0xA 0xB) ∧
    decode 0x8AB2 = .ok (.andReg 0xA 0xB) ∧ decode 0x8AB3 = .ok (.xorReg 0xA 0xB) ∧
    decode 0x8AB4 = .ok (.addReg 0xA 0xB) ∧ decode 0x8AB5 = .ok (.subReg 0xA 0xB) ∧
    decode 0x8AB6 = .ok (.shr 0xA 0xB) ∧ decode 0x8AB7 = .ok (.subnReg 0xA 0xB) ∧
    decode 0x8ABE = .ok (.shl 0xA 0xB) ∧ decode 0xC3F0 = .ok (.rnd 0x3 0xF0) := by decide

theorem test_decode_display_keys :
    decode 0xD12F = .ok (.drw 0x1 0x2 0xF) ∧ decode 0xE39E = .ok (.skp 0x3) ∧ decode 0xE3A1 = .ok (.sknp 0x3) ∧
    decode 0xF407 = .ok (.ldVxDt 0x4) ∧ decode 0xF40A = .ok (.ldVxKey 0x4) ∧ decode 0xF415 = .ok (.ldDtVx 0x4) ∧
    decode 0xF418 = .ok (.ldStVx 0x4) := by decide

theorem test_decode_memory :
    decode 0xA123 = .ok (.ldI 0x123) ∧ decode 0xF51E = .ok (.addI 0x5) ∧ decode 0xF529 = .ok (.ldFont 0x5) ∧
    decode 0xF533 = .ok (.ldBcd 0x5) ∧ decode 0xF555 = .ok (.storeRegs 0x5) ∧
    decode 0xF565 = .ok (.loadRegs 0x5) := by decide

/-- L2-A9 to L2-A13: illegal opcodes. -/
theorem test_decode_illegal :
    decode 0x5121 = .error (.unknownOpcode 0x5121) ∧ decode 0x9121 = .error (.unknownOpcode 0x9121) ∧
    decode 0x800F = .error (.unknownOpcode 0x800F) ∧ decode 0xE09F = .error (.unknownOpcode 0xE09F) ∧
    decode 0xF075 = .error (.unknownOpcode 0xF075) := by decide

/-- The bytes are high byte first (30_encoding R54), and one byte is no opcode. -/
theorem test_decode_bytes :
    decodeBytes [0x6A, 0x42, 0x77] = .ok (.ldImm 0xA 0x42, [0x77]) ∧ decodeBytes [0x6A] = .error .truncated := by
  decide

theorem test_decode_table_word : decodeTableWord 16 0x8124 = some (.addReg 1 2) := by decide

/-! ## Control flow (L1-6, L2-A, L2-B) -/

/-- L2-A6. -/
theorem test_sys_fault : recordAfter State.reset 0x0234 = some (.unknownOpcode 0x0234 0x200) := by decide
/-- L2-B7. -/
theorem test_ret :
    after { State.reset with sp := 1, stack := State.reset.stack.set 0 0x204 } 0x00EE
      (fun t => t.sp = 0 && t.pc = 0x206) = true := by decide
/-- L2-B8. -/
theorem test_ret_underflow : recordAfter State.reset 0x00EE = some (.stackUnderflow 0x00EE 0x200) := by decide
/-- L2-B1. -/
theorem test_jp : after State.reset 0x1234 (fun t => t.pc = 0x234) = true := by decide
/-- L2-B3. -/
theorem test_call :
    after State.reset 0x2300 (fun t => t.stack.get 0 = 0x200 && t.sp = 1 && t.pc = 0x300) = true := by decide
/-- L2-B4. -/
theorem test_call_overflow :
    recordAfter { State.reset with sp := 16 } 0x2300 = some (.stackOverflow 0x2300 0x200) := by decide
/-- L1-6. -/
theorem test_seImm :
    after (State.reset.setV 3 0x12) 0x3312 (fun t => t.pc = 0x204) = true ∧
    after (State.reset.setV 3 0x13) 0x3312 (fun t => t.pc = 0x202) = true := by decide
/-- L2-B10, L2-B11. -/
theorem test_sneImm :
    after (State.reset.setV 3 0x12) 0x4312 (fun t => t.pc = 0x202) = true ∧
    after (State.reset.setV 3 0x13) 0x4312 (fun t => t.pc = 0x204) = true := by decide
/-- L1-6. -/
theorem test_seReg :
    after (regs2 1 0x07 2 0x07) 0x5120 (fun t => t.pc = 0x204) = true ∧
    after (regs2 1 0x07 2 0x08) 0x5120 (fun t => t.pc = 0x202) = true := by decide
/-- L2-B13, L2-B14. -/
theorem test_sneReg :
    after (State.reset.setV 1 0x07) 0x9110 (fun t => t.pc = 0x202) = true ∧
    after (regs2 1 0x07 2 0x08) 0x9120 (fun t => t.pc = 0x204) = true := by decide
/-- L2-B16: not masked to 12 bits. -/
theorem test_jpV0 : after (State.reset.setV 0 0xFF) 0xBFFF (fun t => t.pc = 0x10FE) = true := by decide
/-- L2-B17: V0 and not V5. -/
theorem test_jpV0_uses_v0 : after (State.reset.setV 5 0x40) 0xB500 (fun t => t.pc = 0x500) = true := by decide
/-- L2-B9: a skip may leave memory. -/
theorem test_skip_past_end :
    after { State.reset with pc := 0xFFE } 0x3000 (fun t => t.pc = 0x1002) = true := by decide

/-! ## Register arithmetic and logic (L1-3, L1-4, L2-C) -/

/-- L2-C2: an ordinary write of VF. -/
theorem test_ldImm : after State.reset 0x6F07 (fun t => t.getV 0xF = 0x07) = true := by decide
/-- L2-C3. -/
theorem test_addImm :
    after (regs2 1 0x01 0xF 0x33) 0x71FF (fun t => t.getV 1 = 0x00 && t.getV 0xF = 0x33) = true := by decide
/-- L2-C5. -/
theorem test_ldReg : after (State.reset.setV 2 0x55) 0x8120 (fun t => t.getV 1 = 0x55) = true := by decide
/-- L2-C6. -/
theorem test_orReg :
    after ((regs2 1 0x0F 2 0xF0).setV 0xF 0x07) 0x8121 (fun t => t.getV 1 = 0xFF && t.getV 0xF = 0x07) = true := by
  decide
/-- L2-C7. -/
theorem test_andReg : after (regs2 1 0x3C 2 0x0F) 0x8122 (fun t => t.getV 1 = 0x0C) = true := by decide
/-- L2-C8. -/
theorem test_xorReg : after (regs2 1 0x3C 2 0x0F) 0x8123 (fun t => t.getV 1 = 0x33) = true := by decide
/-- L1-3. -/
theorem test_addReg :
    after (regs2 1 0xFF 2 0x01) 0x8124 (fun t => t.getV 1 = 0x00 && t.getV 0xF = 1 && t.pc = 0x202) = true := by decide
/-- L2-C13: with x = F the carry is what stays. -/
theorem test_addReg_vf : after (regs2 0xF 0x10 1 0xF5) 0x8F14 (fun t => t.getV 0xF = 1) = true := by decide
/-- L1-4. -/
theorem test_subReg :
    after (regs2 1 0x03 2 0x05) 0x8125 (fun t => t.getV 1 = 0xFE && t.getV 0xF = 0) = true := by decide
/-- L2-C16. -/
theorem test_subReg_equal :
    after (regs2 1 0x05 2 0x05) 0x8125 (fun t => t.getV 1 = 0x00 && t.getV 0xF = 1) = true := by decide
/-- L2-C19. -/
theorem test_subnReg :
    after (regs2 1 0x03 2 0x05) 0x8127 (fun t => t.getV 1 = 0x02 && t.getV 0xF = 1) = true := by decide
/-- L2-C20. -/
theorem test_subnReg_borrow :
    after (regs2 1 0x05 2 0x03) 0x8127 (fun t => t.getV 1 = 0xFE && t.getV 0xF = 0) = true := by decide
/-- L2-C25 at the default SHIFT_SOURCE. -/
theorem test_shr :
    after (regs2 1 0xFF 2 0x04) 0x8126 (fun t => t.getV 1 = 0x7F && t.getV 0xF = 1) = true := by decide
/-- L2-C24: with x = F the bit shifted out is what stays. -/
theorem test_shr_vf : after (State.reset.setV 0xF 0x02) 0x8FF6 (fun t => t.getV 0xF = 0) = true := by decide
/-- L2-C29 at both values of SHIFT_SOURCE. -/
theorem test_shl :
    after (regs2 1 0x01 2 0xC0) 0x812E (fun t => t.getV 1 = 0x02 && t.getV 0xF = 0) = true ∧
    (match shiftLeft .y 1 2 (regs2 1 0x01 2 0xC0) with
      | .next t => t.getV 1 = 0x80 && t.getV 0xF = 1
      | .fault _ => false
      | .refused _ => false) = true := by decide
/-- L2-C26. -/
theorem test_shl_bit7 :
    after (State.reset.setV 1 0x80) 0x810E (fun t => t.getV 1 = 0x00 && t.getV 0xF = 1) = true := by decide
/-- L2-C30: the draw itself is free, so the test looks at pc and at the counter of free values. -/
theorem test_rnd : after (State.reset.setV 3 0x77) 0xC300 (fun t => t.pc = 0x202 && t.free = 1) = true := by decide

/-! ## Display (L1-5, L2-D) -/

/-- L2-D1. -/
theorem test_cls :
    after { State.reset with fb := State.reset.fb.toggle 3 4, redraw := false } 0x00E0
      (fun t => t.fb.pixel 3 4 = false && t.redraw) = true := by decide
/-- L2-D8. -/
theorem test_drw_collision :
    after (poke 0x300 [0x80] { withI 0x300 with fb := (State.reset.fb.toggle 0 0).toggle 1 0 }) 0xD011
      (fun t => t.fb.pixel 0 0 = false && t.fb.pixel 1 0 && t.getV 0xF = 1 && t.pc = 0x202) = true := by decide
/-- L2-D2 at DRAW_EDGE = clip, L2-D2 at DRAW_EDGE = wrap, and L2-D6. -/
theorem test_drw_edges :
    after (poke 0x300 [0xFF] ((withI 0x300).setV 0 62)) 0xD011
      (fun t => t.fb.pixel 62 0 && t.fb.pixel 63 0 && t.fb.pixel 0 0 = false && t.getV 0xF = 0) = true ∧
    (match draw .wrap 0 1 1 (poke 0x300 [0xFF] ((withI 0x300).setV 0 62)) with
      | .next t => t.fb.pixel 63 0 && t.fb.pixel 5 0 && t.fb.pixel 6 0 = false
      | .fault _ => false
      | .refused _ => false) = true ∧
    recordAfter (withI 0xFFF) 0xD012 = some (.memoryBounds 0x1000 0xD012 0x200) := by decide

/-! ## Keys and timers (L1-7, L2-E) -/

/-- L2-E1, L2-E2. -/
theorem test_skp :
    after (pressed 5 (State.reset.setV 2 5)) 0xE29E (fun t => t.pc = 0x204) = true ∧
    after (State.reset.setV 2 5) 0xE29E (fun t => t.pc = 0x202) = true := by decide
/-- L2-E5. -/
theorem test_skp_fault :
    recordAfter (State.reset.setV 2 0x10) 0xE29E = some (.keyIndex 0x10 0xE29E 0x200) := by decide
/-- L2-E4. -/
theorem test_sknp : after (State.reset.setV 2 0xF) 0xE2A1 (fun t => t.pc = 0x204) = true := by decide
/-- L2-E6. -/
theorem test_sknp_fault :
    recordAfter (State.reset.setV 2 0xFF) 0xE2A1 = some (.keyIndex 0xFF 0xE2A1 0x200) := by decide
/-- L2-E10. -/
theorem test_ldVxDt :
    after { State.reset with dt := 0x3C } 0xF507 (fun t => t.getV 5 = 0x3C && t.dt = 0x3B) = true := by decide
/-- L2-E7. -/
theorem test_ldVxKey :
    after (pressed 9 (pressed 3 State.reset)) 0xF30A (fun t => t.getV 3 = 3 && t.pc = 0x202) = true := by decide
/-- L2-E8: the stall, with the timers ticking. -/
theorem test_ldVxKey_stall :
    after { State.reset with dt := 5, st := 1 } 0xF30A (fun t => t.pc = 0x200 && t.dt = 4 && t.st = 0) = true := by
  decide
/-- L2-E13. -/
theorem test_ldDtVx : after (State.reset.setV 0 5) 0xF015 (fun t => t.dt = 4 && t.st = 0) = true := by decide
/-- L2-E16. -/
theorem test_ldStVx : after (State.reset.setV 0 2) 0xF018 (fun t => t.st = 1 && t.dt = 0) = true := by decide

/-! ## Index register and memory (L1-8, L2-F) -/

/-- L2-F1. -/
theorem test_ldI : after State.reset 0xA2F0 (fun t => t.i = 0x2F0) = true := by decide
/-- L2-F2. -/
theorem test_addI : after ((withI 0xFFF).setV 2 1) 0xF21E (fun t => t.i = 0x1000 && t.getV 0xF = 1) = true := by decide
/-- L2-F6. -/
theorem test_addI_wraps :
    after ((withI 0xFFF0).setV 2 0x20) 0xF21E (fun t => t.i = 0x0010 && t.getV 0xF = 1) = true := by decide
/-- L2-F8. -/
theorem test_ldFont : after (State.reset.setV 0 0x1A) 0xF029 (fun t => t.i = 0x032) = true := by decide
/-- L1-8. -/
theorem test_ldBcd :
    after ((withI 0x300).setV 1 123) 0xF133
      (fun t => t.mem.readBytes 0x300 3 = [1, 2, 3] && t.i = 0x300 && t.pc = 0x202) = true := by decide
/-- L2-F14. -/
theorem test_ldBcd_reserved :
    recordAfter ((withI 0x1FF).setV 1 1) 0xF133 = some (.reservedWrite 0x1FF 0xF133 0x200) := by decide
/-- L2-F17. -/
theorem test_storeRegs :
    after (((withI 0x300).setV 0 1).setV 1 2 |>.setV 2 3) 0xF255
      (fun t => t.mem.readBytes 0x300 3 = [1, 2, 3] && t.i = 0x303) = true := by decide
/-- L2-F19. -/
theorem test_storeRegs_bounds :
    recordAfter (withI 0xFF1) 0xFF55 = some (.memoryBounds 0x1000 0xFF55 0x200) := by decide
/-- L2-F23. -/
theorem test_loadRegs :
    after (poke 0x300 [0xAA, 0xBB] ((withI 0x300).setV 2 7)) 0xF165
      (fun t => t.getV 0 = 0xAA && t.getV 1 = 0xBB && t.getV 2 = 7 && t.i = 0x302) = true := by decide
/-- L2-F24. -/
theorem test_loadRegs_bounds :
    recordAfter (withI 0xFFE) 0xF265 = some (.memoryBounds 0x1000 0xF265 0x200) := by decide

/-! ## The step and the host (L1-1, L2-A) -/

/-- L2-A2. -/
theorem test_fetch_bounds :
    (match step { State.reset with pc := 0xFFF } with
      | .next t => t.halted
      | .fault _ => none
      | .refused _ => none) = some (.outOfBoundsFetch 0xFFF) := by decide
/-- L2-A15: no wrap below 0. -/
theorem test_tick : after { State.reset with st := 0xFF } 0x6000 (fun t => t.dt = 0 && t.st = 0xFE) = true := by decide
/-- L2-A14. -/
theorem test_halted_no_step :
    step { State.reset with halted := some (.outOfBoundsFetch 0xFFF) } =
      .fault (.halted (.outOfBoundsFetch 0xFFF)) := rfl
/-- L1-1 with the two bytes 12 00. -/
theorem test_load :
    (match hostLoad [0x12, 0x00] State.reset with
      | .loaded t => t.mem.read 0x200 = 0x12 && t.mem.read 0x201 = 0x00 && t.halted = none
      | .programTooLarge _ => false) = true := by decide
/-- L1-1 with 3585 bytes: the answer, and no state change. -/
theorem test_load_too_large :
    hostDo (.load (List.replicate 3585 0xAB)) State.reset = some (.programTooLarge 3585, State.reset) := by
  have len : (List.replicate 3585 (0xAB : Byte)).length = 3585 := List.length_replicate
  have big : 3585 > Config.maxProgram := by decide
  rw [hostDo, hostLoad, len, if_pos big, LoadResult.answer]
/-- L1-7, step 3, as the host does it: the key write, then one step. -/
theorem test_host_key_then_step :
    ((hostDo (.setKey 7 true) (launch 0xF30A)).bind (fun p => hostDo .step p.2)).map
      (fun p => (p.1, p.2.pc, p.2.getV 3)) = some (.stepped none, 0x202, 0x07) := by decide
/-- L2-B18: a self-jump ends at its own address where the launch says so, and else when the host stops. -/
theorem test_run_selfJump :
    (runLaunch { image := [0x12, 0x00], endPc := some 0x200, bound := 9 } State.reset).map (fun p => (p.1, p.2.pc)) =
      some (.reached, 0x200) ∧
    (runLaunch { image := [0x12, 0x00], endPc := none, bound := 1 } State.reset).map (fun p => (p.1, p.2.pc)) =
      some (.hostStopped, 0x200) := by decide
/-- L2-B2: the step after a jump to 0xFFF faults, and the run ends. -/
theorem test_run_fault :
    (runLaunch { image := [0x1F, 0xFF], endPc := none, bound := 9 } State.reset).map (fun p => p.1) =
      some (.faulted (.outOfBoundsFetch 0xFFF)) := by decide
/-- L1-2: the last glyph. -/
theorem test_font : State.reset.mem.readBytes 0x4B 5 = [0xF0, 0x80, 0xF0, 0x80, 0x80] := by decide
/-- A freshly constructed core has no font (70_reset R119). -/
theorem test_constructed_no_font : State.constructed.mem.read 0 = 0 := by
  have h : (Memory.ofBytes (fun _ => 0)).read 0 = 0 := by rw [Memory.read_ofBytes]; decide
  exact h

/-! ## Witnesses: the hypotheses of each statement are met, at the ends of their ranges -/

theorem witness_EncodeThenDecode : WellFormed (.sys 0xFFF) = true ∧ WellFormed (.sys 0x000) = true := by decide
theorem witness_DecodeThenEncode : decode 0x8AB6 = .ok (.shr 0xA 0xB) ∧ decode 0x0000 = .ok (.sys 0) := by decide
/-- One opcode for each clause. -/
theorem witness_LenientDecodeRows :
    ((0x01E0 : Word).toNat / 4096 = 0 ∧ (0x01E0 : Word).toNat % 256 = 0xE0) ∧
    ((0x0FEE : Word).toNat / 4096 = 0 ∧ (0x0FEE : Word).toNat % 256 = 0xEE) ∧
    (0x512F : Word).toNat / 4096 = 5 ∧ (0x9121 : Word).toNat / 4096 = 9 ∧
    (¬((0x8008 : Word).toNat / 4096 = 0 ∧ (0x8008 : Word).toNat % 256 ∈ [0xE0, 0xEE]) ∧
      (0x8008 : Word).toNat / 4096 ≠ 5 ∧ (0x8008 : Word).toNat / 4096 ≠ 9) := by decide
/-- The last pc that fetches and the first that does not. -/
theorem witness_FetchIsBigEndianOrFaults :
    (0xFFE : Word).toNat + 1 ≤ 0xFFF ∧ (0xFFF : Word).toNat + 1 > 0xFFF ∧
      Running { State.reset with pc := 0xFFF } := by decide
theorem witness_StepRunsDecodedInstruction :
    Running (launch 0x8124) ∧ (launch 0x8124).fetch = some 0x8124 ∧ decode 0x8124 = .ok (.addReg 1 2) := by decide
/-- Each way to have no defined instruction. -/
theorem witness_UndefinedOpcodeRaisesUnknownOpcode :
    (Running (launch 0x5121) ∧ (launch 0x5121).fetch = some 0x5121 ∧
      ∃ e, decode 0x5121 = .error e) ∧
    Running (launch 0x0234) ∧ (launch 0x0234).fetch = some 0x0234 ∧ ∃ nnn, decode 0x0234 = .ok (.sys nnn) :=
  ⟨⟨rfl, by decide, _, rfl⟩, rfl, by decide, _, rfl⟩
theorem witness_HaltedCoreHasNoStep :
    (State.reset.afterFault (.outOfBoundsFetch 0xFFF)).halted = some (.outOfBoundsFetch 0xFFF) := rfl
theorem witness_RunningCoreAlwaysSteps : Running State.reset := rfl
/-- A step that faults with an opcode, and one that faults before it has one. -/
theorem witness_FaultEntryIsHalt_FaultRecordIsPrecise :
    (∃ t, step State.reset = .next t ∧ t.halted = some (.unknownOpcode 0 0x200)) ∧
    ∃ t, step { State.reset with pc := 0xFFF } = .next t ∧ t.halted = some (.outOfBoundsFetch 0xFFF) :=
  ⟨⟨_, rfl, by decide⟩, _, rfl, by decide⟩
theorem witness_FaultsOfEachInstruction :
    Running State.reset ∧ ∃ t, exec .ret State.reset = .next t ∧ t.halted = some (.stackUnderflow 0x00EE 0x200) :=
  ⟨rfl, _, rfl, by decide⟩
theorem witness_TimersTickOncePerStep :
    (launch 0x8124).fetch = some 0x8124 ∧ decode 0x8124 = .ok (.addReg 1 2) ∧
      ∃ t, step (launch 0x8124) = .next t ∧ Running t :=
  ⟨by decide, by decide, _, rfl, by decide⟩
theorem witness_SysRaisesUnknownOpcode : WellFormed (.sys 0x234) = true := by decide
/-- One entry, sixteen entries, none. -/
theorem witness_RetReturnsAfterCall :
    (0 : Fin 16).val + 1 = ({ State.reset with sp := 1 } : State).sp.val ∧
    (15 : Fin 16).val + 1 = ({ State.reset with sp := 16 } : State).sp.val ∧ State.reset.sp.val = 0 := by decide
/-- No entry, fifteen entries, sixteen. -/
theorem witness_CallPushesOwnAddress :
    (0 : Fin 16).val = State.reset.sp.val ∧ (15 : Fin 16).val = ({ State.reset with sp := 15 } : State).sp.val ∧
    ({ State.reset with sp := 16 } : State).sp.val = 16 := by decide
theorem witness_CallThenRetResumes :
    ∃ t u : State, Running t ∧ exec (.call 0x300) { State.reset with sp := 15 } = .next t ∧ u.stack = t.stack ∧ u.sp = t.sp ∧
      (14 : Fin 16).val < ({ State.reset with sp := 15 } : State).sp.val :=
  ⟨_, _, by decide, rfl, rfl, rfl, by decide⟩
/-- A destination that is not VF (addReg, subReg, subnReg, shr, shl). -/
theorem witness_flag_destinations : (1 : Reg) ≠ Reg.vf := by decide
theorem witness_RndMasksTheDraw : (0x0F : Byte).getLsbD 4 = false := by decide
/-- No row at any I, the last block in memory, the first that leaves it; and a draw with and without collision. -/
theorem witness_DrwXorsTheSprite :
    (0 : Nibble).toNat = 0 ∧ (withI 0xFFF).i.toNat + (1 : Nibble).toNat ≤ 0x1000 ∧
    ((2 : Nibble).toNat ≠ 0 ∧ (withI 0xFFF).i.toNat + (2 : Nibble).toNat > 0x1000) ∧
    (∃ t, exec (.drw 0 1 1) (poke 0x300 [0x80] { withI 0x300 with fb := State.reset.fb.toggle 0 0 }) = .next t ∧
      (State.reset.fb.toggle 0 0).pixel 0 0 = true ∧ t.fb.pixel 0 0 = false) ∧
    ∃ t, exec (.drw 0 1 0) State.reset = .next t ∧
      ∀ px py, px < 64 → py < 32 → State.reset.fb.pixel px py = true → t.fb.pixel px py = true :=
  ⟨by decide, by decide, by decide, ⟨_, rfl, by decide, by decide⟩, _, rfl, fun _ _ _ _ h => h⟩
/-- L1-5: the sprite 0xC0 drawn twice on a clear screen. -/
theorem witness_DrawTwiceRestores :
    (0 : Reg) ≠ Reg.vf ∧ (1 : Reg) ≠ Reg.vf ∧
    (∃ t u, Running t ∧ Running u ∧ exec (.drw 0 1 1) (poke 0x300 [0xC0] (withI 0x300)) = .next t ∧
      exec (.drw 0 1 1) t = .next u) ∧
    ∀ px py, spriteSets (poke 0x300 [0xC0] (withI 0x300)) 0 0 1 px py →
      (poke 0x300 [0xC0] (withI 0x300)).fb.pixel px py = false := by
  refine ⟨by decide, by decide, ⟨_, _, ?_, ?_, rfl, rfl⟩, fun px py _ => ?_⟩
  · decide
  · decide
  · exact Framebuffer.pixel_clear px py
/-- The last value that names a key and the first that does not. -/
theorem witness_KeySkipsReadTheKey :
    (15 : Fin 16).val = ((State.reset.setV 2 0xF).getV 2).toNat ∧
    ((State.reset.setV 2 0x10).getV 2).toNat > 0xF := by decide
/-- Keys 3 and 9 pressed, and no key pressed. -/
theorem witness_KeyWaitTakesLowestKeyOrStalls :
    ((pressed 9 (pressed 3 State.reset)).key.get 3 = true ∧
      ∀ j : Fin 16, j < 3 → (pressed 9 (pressed 3 State.reset)).key.get j = false) ∧
    ∀ k : Fin 16, State.reset.key.get k = false := by decide
/-- The lowest and the highest block that may be written, and the nearest that may not. -/
theorem witness_LdBcdStoresDigits :
    (0x1FF < (withI 0x200).i.toNat ∧ (withI 0x200).i.toNat + 2 ≤ 0xFFF) ∧
    (0x1FF < (withI 0xFFD).i.toNat ∧ (withI 0xFFD).i.toNat + 2 ≤ 0xFFF) ∧
    (withI 0x1FF).i.toNat ≤ 0x1FF ∧ (withI 0xFFE).i.toNat + 2 > 0xFFF := by decide
/-- The lowest and the highest block that may be written, a register at or below X, and the nearest blocks that may
not. -/
theorem witness_StoreRegsDumpsRegisters :
    (0x1FF < (withI 0x200).i.toNat ∧ (withI 0x200).i.toNat + (0 : Reg).val ≤ 0xFFF) ∧
    (0x1FF < (withI 0xFF0).i.toNat ∧ (withI 0xFF0).i.toNat + (15 : Reg).val ≤ 0xFFF) ∧ (3 : Reg) ≤ 15 ∧
    (withI 0x1FF).i.toNat ≤ 0x1FF ∧ (withI 0xFF1).i.toNat + (15 : Reg).val > 0xFFF := by decide
/-- The lowest and the highest block that may be read, and the nearest that may not. -/
theorem witness_LoadRegsFillsRegisters :
    (withI 0x000).i.toNat + (0 : Reg).val ≤ 0xFFF ∧ (withI 0xFF0).i.toNat + (15 : Reg).val ≤ 0xFFF ∧
    (3 : Reg) ≤ 15 ∧ (withI 0xFF1).i.toNat + (15 : Reg).val > 0xFFF := by decide
theorem witness_LoadUndoesStore :
    ∃ t u : State, Running t ∧ exec (.storeRegs 2) (((withI 0x300).setV 0 1).setV 1 2) = .next t ∧ u.mem = t.mem ∧
      u.i = (withI 0x300).i ∧ (1 : Reg) ≤ 2 :=
  ⟨_, poke 0x300 [1, 2, 0] (withI 0x300), by decide, rfl, by decide, rfl, by decide⟩
theorem witness_StoredBytesAreFetched :
    ∃ t, Running t ∧ exec (.storeRegs 1) (withI 0x300) = .next t ∧ (1 : Reg) ≤ 1 ∧ (0 : Reg).val + 1 = (1 : Reg).val ∧
      (0x300 : Word).toNat = (withI 0x300).i.toNat + (0 : Reg).val :=
  ⟨_, by decide, rfl, by decide, by decide, by decide⟩
/-- The rules over all instructions, met by one that draws nothing, calls nothing and leaves I; and a state whose
REDRAW is true. -/
theorem witness_rules_over_all_instructions :
    (∃ t, exec (.ldImm 1 2) State.reset = .next t ∧ Running t) ∧ State.reset.redraw = true ∧
    (Instr.ldImm 1 2 ≠ .cls ∧ (∀ x y n, Instr.ldImm 1 2 ≠ .drw x y n)) ∧
    ((∀ nnn, Instr.ldImm 1 2 ≠ .call nnn) ∧ Instr.ldImm 1 2 ≠ .ret) ∧ writesIndex (.ldImm 1 2) = false :=
  ⟨⟨_, rfl, rfl⟩, rfl, ⟨by decide, fun _ _ _ h => Instr.noConfusion h⟩, ⟨fun _ h => Instr.noConfusion h, by decide⟩, rfl⟩
/-- OnlyStoresChangeMemory, on an instruction that does store. -/
theorem witness_OnlyStoresChangeMemory :
    ∃ t, exec (.ldBcd 1) (withI 0x300) = .next t ∧ Running t ∧ storedBytes (withI 0x300) (.ldBcd 1) = (0x300, 3) :=
  ⟨_, rfl, by decide, by decide⟩
/-- The invariants hold of a state that answers a next state. -/
theorem witness_invariants :
    MemoryCanonical (launch 0x6A42) ∧ ReservedIntact (launch 0x6A42) ∧ ReturnsBounded (launch 0x6A42) ∧
      ∃ t, step (launch 0x6A42) = .next t := by
  refine ⟨by decide, fun _ a ha => ?_, fun _ => by decide, _, rfl⟩
  show Memory.read (Memory.writeBytes [] 0x200 [0x6A, 0x42]) a = _
  rw [Memory.read_writeBytes, if_neg (by simp at ha; omega)]
  rfl
/-- Each of the host's operations, and the invariants before it. -/
theorem witness_HostOperationsKeepTheInvariants :
    (∃ t, t = hostReset State.reset) ∧ (∃ t, hostLoad [0x12, 0x00] State.reset = .loaded t) ∧
    (∃ t, t = hostSetKey 3 true State.reset) ∧ (∃ t, t = (hostTakeRedraw State.reset).2) ∧
    MemoryCanonical State.reset ∧ ReservedIntact State.reset ∧ ReturnsBounded State.reset :=
  ⟨⟨_, rfl⟩, ⟨_, rfl⟩, ⟨_, rfl⟩, ⟨_, rfl⟩, Memory.wf_nil, fun _ _ _ => rfl, fun _ => by decide⟩
/-- The ends of the clauses on an address: the font's last byte, and the one after it. -/
theorem witness_ResetSetsEveryField : (79 : Nat) < 80 ∧ (80 : Nat) ≤ 80 := by decide
/-- The largest image, and the smallest that is too large. -/
theorem witness_LoadCopiesTheImage_BootReachesLaunchState :
    (List.replicate 3584 (0xAB : Byte)).length ≤ 3584 ∧ 3583 < (List.replicate 3584 (0xAB : Byte)).length ∧
    (List.replicate 3585 (0xAB : Byte)).length > 3584 := by
  simp only [List.length_replicate]; omega
theorem witness_HostSurfacesShowTheState : (4 : Fin 16) ≠ 3 ∧ 63 < 64 ∧ 31 < 32 := by decide
/-- A running core, a halted one, two different states with one view, and a step. -/
theorem witness_HostSeesOnlyItsSurfaces :
    Running State.reset ∧ (State.reset.afterFault (.outOfBoundsFetch 0xFFF)).halted = some (.outOfBoundsFetch 0xFFF) ∧
    (HostOp.readTimers ≠ .step ∧ hostView State.reset = hostView (State.reset.setV 1 5) ∧
      State.reset ≠ State.reset.setV 1 5) ∧ ∃ t, step (launch 0x6A42) = .next t :=
  ⟨rfl, rfl, ⟨by decide, rfl, by decide⟩, _, rfl⟩
/-- A sprite at the last place where all of it is on the screen. -/
theorem witness_ParametersAgreeWhereUnused :
    ((regs2 0 56 1 27).getV 0).toNat + 8 ≤ 64 ∧ ((regs2 0 56 1 27).getV 1).toNat + (5 : Nibble).toNat ≤ 32 := by decide

end Sys2Proof.Tests
end

section
/-! SUPPORT. How the rule of every instruction ends, said once (60_exceptions R97, R104, R105): it leaves HALTED alone,
or it raises a fault whose record holds the instruction's own opcode and pc. -/

namespace Sys2Proof.Machine

/-- The two ways the rule of `i`, run in the state `s`, ends: without a fault, and then HALTED is as before, or in the
entry of a fault the instruction can raise (R104), with its opcode and its pc in the record (R97). -/
inductive RuleEnds (i : Instr) (s : State) : State → Prop
  | completes (t : State) (halted : t.halted = s.halted) : RuleEnds i s t
  | faults (r : FaultRecord) (op : r.opOf = some (encode i)) (pc : r.pcOf = s.pc)
      (code : r.code ∈ faultCodes i) : RuleEnds i s (s.afterFault r)

/-- The outcome is a next state, and one of the two ways `i` ends: no model fault and no refusal. -/
def EndsByRule (i : Instr) (s : State) (o : Host.Outcome State Fault Refusal) : Prop :=
  ∃ t, o = .next t ∧ RuleEnds i s t

theorem EndsByRule.completes {i : Instr} {s t : State} (halted : t.halted = s.halted) : EndsByRule i s (.next t) :=
  ⟨t, rfl, .completes t halted⟩

theorem EndsByRule.faults {i : Instr} {s : State} {r : FaultRecord} (op : r.opOf = some (encode i))
    (pc : r.pcOf = s.pc) (code : r.code ∈ faultCodes i) : EndsByRule i s (raise s r) :=
  ⟨s.afterFault r, rfl, .faults r op pc code⟩

theorem AccessError.opOf_record (e : AccessError) (op pc : Word) : (e.record op pc).opOf = some op := by
  cases e <;> rfl

theorem AccessError.pcOf_record (e : AccessError) (op pc : Word) : (e.record op pc).pcOf = pc := by
  cases e <;> rfl

/-- A refused access is MemoryBoundsError or ReservedWriteError. -/
theorem AccessError.code_record (e : AccessError) (op pc : Word) : (e.record op pc).code ∈ [3, 7] := by
  cases e <;> simp [AccessError.record, FaultRecord.code]

/-- A refused read is MemoryBoundsError. -/
theorem code_record_of_memRead_error {s : State} {a n : Nat} {e : AccessError} (h : memRead s a n = .error e)
    (op pc : Word) : (e.record op pc).code ∈ [3] := by
  obtain ⟨b, rfl⟩ := memRead_eq_error s a n e h
  simp [AccessError.record, FaultRecord.code]

/-- A write that is carried out leaves HALTED alone. -/
theorem halted_of_memWrite_ok {p : ReservedWrite} {s t : State} {a : Nat} {bs : List Byte}
    (h : memWrite p s a bs = .ok t) : t.halted = s.halted := by
  rw [(memWrite_eq_ok p s t a bs h).1]

/-! ## The instructions that can fault -/

theorem execRet_endsByRule (s : State) : EndsByRule .ret s (execRet s) := by
  unfold execRet
  cases h : s.pop with
  | none => exact .faults rfl rfl (List.mem_singleton_self _)
  | some p =>
    obtain ⟨a, t⟩ := p
    obtain ⟨k, -, -, rfl⟩ := State.pop_eq_some s t a h
    exact .completes rfl

theorem execCall_endsByRule (nnn : Addr12) (s : State) : EndsByRule (.call nnn) s (execCall nnn s) := by
  unfold execCall
  cases h : s.push s.pc with
  | none => exact .faults rfl rfl (List.mem_singleton_self _)
  | some t =>
    obtain ⟨hs, rfl⟩ := State.push_eq_some s t s.pc h
    exact .completes rfl

theorem draw_endsByRule (edge : DrawEdge) (x y : Reg) (n : Nibble) (s : State) :
    EndsByRule (.drw x y n) s (draw edge x y n s) := by
  unfold draw
  cases h : memRead s s.dataAddr n.toNat with
  | error e =>
    exact .faults (e.opOf_record _ _) (e.pcOf_record _ _) (code_record_of_memRead_error h _ _)
  | ok rows => exact .completes rfl

theorem execSkp_endsByRule (x : Reg) (s : State) : EndsByRule (.skp x) s (execSkp x s) := by
  unfold execSkp
  cases s.keyOperand x with
  | error value => exact .faults rfl rfl (List.mem_singleton_self _)
  | ok k => exact .completes rfl

theorem execSknp_endsByRule (x : Reg) (s : State) : EndsByRule (.sknp x) s (execSknp x s) := by
  unfold execSknp
  cases s.keyOperand x with
  | error value => exact .faults rfl rfl (List.mem_singleton_self _)
  | ok k => exact .completes rfl

theorem storeBcd_endsByRule (policy : ReservedWrite) (x : Reg) (s : State) :
    EndsByRule (.ldBcd x) s (storeBcd policy x s) := by
  unfold storeBcd
  cases h : memWrite policy s s.dataAddr (bcdDigits (s.getV x)) with
  | error e => exact .faults (e.opOf_record _ _) (e.pcOf_record _ _) (e.code_record _ _)
  | ok t => exact .completes (halted_of_memWrite_ok h :)

theorem dump_endsByRule (policy : ReservedWrite) (x : Reg) (s : State) :
    EndsByRule (.storeRegs x) s (dump policy x s) := by
  unfold dump
  cases h : memWrite policy s s.dataAddr (s.dumpRegs x) with
  | error e => exact .faults (e.opOf_record _ _) (e.pcOf_record _ _) (e.code_record _ _)
  | ok t => exact .completes (halted_of_memWrite_ok h :)

theorem execLoadRegs_endsByRule (x : Reg) (s : State) : EndsByRule (.loadRegs x) s (execLoadRegs x s) := by
  unfold execLoadRegs
  cases h : memRead s s.dataAddr (x.val + 1) with
  | error e =>
    exact .faults (e.opOf_record _ _) (e.pcOf_record _ _) (code_record_of_memRead_error h _ _)
  | ok bytes => exact .completes (by simp)

/-! ## The instructions that cannot fault, and all together -/

theorem execLdVxKey_endsByRule (x : Reg) (s : State) : EndsByRule (.ldVxKey x) s (execLdVxKey x s) := by
  unfold execLdVxKey
  cases s.lowestKey with
  | none => exact .completes rfl
  | some k => exact .completes rfl

/-- Every instruction's rule answers a next state: with HALTED as before, or with a fault of its own entered. -/
theorem exec_endsByRule (i : Instr) (s : State) : EndsByRule i s (exec i s) := by
  cases i with
  | sys nnn => exact .faults rfl rfl (List.mem_singleton_self _)
  | ret => exact execRet_endsByRule s
  | call nnn => exact execCall_endsByRule nnn s
  | drw x y n => exact draw_endsByRule _ x y n s
  | skp x => exact execSkp_endsByRule x s
  | sknp x => exact execSknp_endsByRule x s
  | ldVxKey x => exact execLdVxKey_endsByRule x s
  | ldBcd x => exact storeBcd_endsByRule _ x s
  | storeRegs x => exact dump_endsByRule _ x s
  | loadRegs x => exact execLoadRegs_endsByRule x s
  | _ => exact .completes rfl

/-- No instruction stops the machine by a model fault or a refusal. -/
theorem exec_eq_next (i : Instr) (s : State) : ∃ t, exec i s = .next t :=
  (exec_endsByRule i s).imp fun _ h => h.1

/-! ## The step by what was fetched (30_encoding R55) -/

theorem step_of_fetch_none {s : State} (hrun : Running s) (hf : s.fetch = none) :
    step s = raise s (.outOfBoundsFetch s.pc) := by
  simp only [step, cycle, hrun, hf]

theorem step_of_fetch {s : State} {op : Word} (hrun : Running s) (hf : s.fetch = some op) :
    step s = runOpcode op s := by
  simp only [step, cycle, hrun, hf]

/-- A fetched opcode always leads to a next state, whether or not it decodes. -/
theorem runOpcode_eq_next (op : Word) (s : State) : ∃ t, runOpcode op s = .next t := by
  unfold runOpcode
  cases decode op with
  | error e => exact ⟨_, rfl⟩
  | ok i =>
    obtain ⟨u, hu⟩ := exec_eq_next i s
    simp only [hu]
    exact ⟨_, rfl⟩

/-- Settles O10: a failed fetch raises a fault, and whatever opcode is fetched, running it answers a next state. -/
theorem runningCoreAlwaysSteps : Obligations.RunningCoreAlwaysSteps := by
  intro s hrun
  cases hf : s.fetch with
  | none => exact ⟨_, step_of_fetch_none hrun hf⟩
  | some op =>
    rw [step_of_fetch hrun hf]
    exact runOpcode_eq_next op s

end Sys2Proof.Machine
end

section
/-! SUPPORT. Under DECODE_STRICT the encoding of what an opcode decodes to is the opcode (30_encoding R50, R51), one
lemma for each category that selects by more than its first nibble. -/

namespace Sys2Proof

/-! ## An encoding form on the fields of an opcode -/

theorem wordNNN_eq {op : Word} {c : Nibble} (hc : opCategory op = c) : wordNNN c (opNNN op) = op := by
  rw [← hc, wordNNN_of_fields]

theorem wordXNN_eq {op : Word} {c : Nibble} {nn : Byte} (hc : opCategory op = c) (hn : opNN op = nn) :
    wordXNN c (opX op) nn = op := by
  rw [← hc, ← hn, wordXNN_of_fields]

theorem wordXYN_eq {op : Word} {c n : Nibble} (hc : opCategory op = c) (hn : opN op = n) :
    wordXYN c (opX op) (opY op) n = op := by
  rw [← hc, ← hn, wordXYN_of_fields]

/-! ## The categories -/

theorem encode_decodeCategory0 {op : Word} (hc : opCategory op = 0x0) : encode (decodeCategory0 true op) = op := by
  simp only [decodeCategory0, Bool.true_eq_false, false_and, if_false]
  split_ifs with hcls hret
  · exact hcls.symm
  · exact hret.symm
  · exact wordNNN_eq hc

theorem encode_of_decodeCategory8 {op : Word} {i : Instr} (hc : opCategory op = 0x8)
    (h : decodeCategory8 op = .ok i) : encode i = op := by
  unfold decodeCategory8 at h
  split_ifs at h <;> cases h <;> exact wordXYN_eq hc (by assumption)

theorem encode_of_decodeCategoryE {op : Word} {i : Instr} (hc : opCategory op = 0xE)
    (h : decodeCategoryE op = .ok i) : encode i = op := by
  unfold decodeCategoryE at h
  split_ifs at h <;> cases h <;> exact wordXNN_eq hc (by assumption)

theorem encode_of_decodeCategoryF {op : Word} {i : Instr} (hc : opCategory op = 0xF)
    (h : decodeCategoryF op = .ok i) : encode i = op := by
  unfold decodeCategoryF at h
  split_ifs at h <;> cases h <;> exact wordXNN_eq hc (by assumption)

/-- An opcode is the encoding of what it decodes to: category by category, in the order of 30_encoding R51. The unused
nibble of categories 5 and 9 is what DECODE_STRICT checks. -/
theorem encode_of_decode {op : Word} {i : Instr} (h : decode op = .ok i) : encode i = op := by
  change decodeWith true op = .ok i at h
  rcases opCategory_cases op with
    hc | hc | hc | hc | hc | hc | hc | hc | hc | hc | hc | hc | hc | hc | hc | hc <;>
    simp [decodeWith, hc] at h
  · subst h; exact encode_decodeCategory0 hc
  · subst h; exact wordNNN_eq hc
  · subst h; exact wordNNN_eq hc
  · subst h; exact wordXNN_eq hc rfl
  · subst h; exact wordXNN_eq hc rfl
  · split_ifs at h with hn; cases h; exact wordXYN_eq hc hn
  · subst h; exact wordXNN_eq hc rfl
  · subst h; exact wordXNN_eq hc rfl
  · exact encode_of_decodeCategory8 hc h
  · split_ifs at h with hn; cases h; exact wordXYN_eq hc hn
  · subst h; exact wordNNN_eq hc
  · subst h; exact wordNNN_eq hc
  · subst h; exact wordXNN_eq hc rfl
  · subst h; exact wordXYN_eq hc rfl
  · exact encode_of_decodeCategoryE hc h
  · exact encode_of_decodeCategoryF hc h

end Sys2Proof
end

section
/-! SUPPORT. The parametric machine at the default parameters (00_scope R6): its rules are those of `exec`, and putting
the fetched opcode in a fault record changes nothing, since the record holds it already. -/

namespace Sys2Proof.Machine

theorem execWith_default (i : Instr) (s : State) : execWith Config.params i s = exec i s := by
  cases i <;> rfl

/-- A record that holds the opcode already is left as it is. -/
theorem FaultRecord.withOpcode_eq_self {r : FaultRecord} {op : Word} (h : r.opOf = some op) :
    r.withOpcode op = r := by
  cases r <;> cases h <;> rfl

theorem State.recordOpcode_of_running {s : State} (h : Running s) (op : Word) : s.recordOpcode op = s := by
  cases s
  cases h
  rfl

theorem State.recordOpcode_afterFault (s : State) {r : FaultRecord} {op : Word} (h : r.opOf = some op) :
    (s.afterFault r).recordOpcode op = s.afterFault r := by
  simp only [State.recordOpcode, State.afterFault, Option.map_some, FaultRecord.withOpcode_eq_self h]

/-- However the rule of `i` ends in a running core, the record of its fault holds the encoding of `i`. -/
theorem RuleEnds.recordOpcode_encode {i : Instr} {s t : State} (hrun : Running s) (h : RuleEnds i s t) :
    t.recordOpcode (encode i) = t := by
  cases h with
  | completes _ halted => exact State.recordOpcode_of_running (halted.trans hrun) _
  | faults r op => exact State.recordOpcode_afterFault s op

theorem execOpcodeWith_default {s : State} (hrun : Running s) (i : Instr) :
    execOpcodeWith Config.params (encode i) i s = exec i s := by
  obtain ⟨t, ht, hends⟩ := exec_endsByRule i s
  simp only [execOpcodeWith, execWith_default, ht, hends.recordOpcode_encode hrun]

theorem runOpcodeWith_default {s : State} (hrun : Running s) (op : Word) :
    runOpcodeWith Config.params op s = runOpcode op s := by
  unfold runOpcodeWith runOpcode
  rw [← decode]
  cases hd : decode op with
  | error e => rfl
  | ok i =>
    cases encode_of_decode hd
    simp only [execOpcodeWith_default hrun]

/-- Settles O58: a halted core and a failed fetch name no parameter, and a fetched opcode runs alike in both
machines. -/
theorem defaultParametersGiveTheStep : Obligations.DefaultParametersGiveTheStep := by
  intro s
  unfold step cycle cycleWith
  cases hrun : s.halted with
  | some r => rfl
  | none =>
    cases s.fetch with
    | none => rfl
    | some op => exact runOpcodeWith_default hrun op

end Sys2Proof.Machine
end

section
/-! SUPPORT. What an instruction that raises no fault does to the state, said once over all instructions (10_state R13
to R27): the operations it may end in, and what each of them leaves unchanged. -/

namespace Sys2Proof.Machine

/-- `Completes s i t`: the rule of `i` took `s` to `t` and raised no fault. A constructor that is not tied to one
instruction leaves the value written open and holds what permits `i` to write there. -/
inductive Completes (s : State) : Instr → State → Prop
  | reg {i : Instr} (x : Reg) (b : Byte) (hx : x ∈ writtenRegs i) : Completes s i ((s.setV x b).advance 2)
  | regFlag {i : Instr} (x : Reg) (b : Byte) (flag : Bool) (hx : x ∈ writtenRegs i) (hvf : Reg.vf ∈ writtenRegs i) :
      Completes s i (((s.setV x b).setFlag flag).advance 2)
  | rnd (x : Reg) (nn : Byte) :
      Completes s (.rnd x nn) (({ s with free := s.free + 1 }.setV x (Config.randomByte s.free &&& nn)).advance 2)
  | skip {i : Instr} (taken : Bool) : Completes s i (s.skipIf taken)
  | jump {i : Instr} (a : Word) (ha : a.toNat ≤ 0x10FE) : Completes s i { s with pc := a }
  | call (nnn : Addr12) (hsp : s.sp.val < 16) :
      Completes s (.call nnn)
        { s with stack := s.stack.set s.sp.val s.pc, sp := ⟨s.sp.val + 1, by omega⟩, pc := absolute nnn }
  | ret (k : Fin 16) (hk : k.val + 1 = s.sp.val) :
      Completes s .ret { s with sp := ⟨k.val, by omega⟩, pc := BitVec.ofNat 16 ((s.stack.get k).toNat + 2) }
  | cls : Completes s .cls ({ s with fb := Framebuffer.clear, redraw := true }.advance 2)
  | drw (x y : Reg) (n : Nibble) :
      Completes s (.drw x y n)
        (drawSprite Config.params.drawEdge x y (s.mem.readBytes s.dataAddr n.toNat) s)
  | index {i : Instr} (a : Word) (hi : writesIndex i = true) : Completes s i ({ s with i := a }.advance 2)
  | addI (x : Reg) :
      Completes s (.addI x)
        (((s.addToI (s.getV x).toNat).setFlag (indexOverflow s.i (s.getV x))).advance 2)
  | timers {i : Instr} (d e : Byte) : Completes s i ({ s with dt := d, st := e }.advance 2)
  | storeDigits (x : Reg) (lo : 0x1FF < s.dataAddr) (hi : s.dataAddr + 3 ≤ 0x1000) :
      Completes s (.ldBcd x)
        ({ s with mem := s.mem.writeBytes s.dataAddr (bcdDigits (s.getV x)) }.advance 2)
  | storeRegs (x : Reg) (lo : 0x1FF < s.dataAddr) (hi : s.dataAddr + (x.val + 1) ≤ 0x1000) :
      Completes s (.storeRegs x)
        (({ s with mem := s.mem.writeBytes s.dataAddr (s.dumpRegs x) }.addToI (x.val + 1)).advance 2)
  | loadRegs (x : Reg) :
      Completes s (.loadRegs x)
        (((s.fillRegs x (s.mem.readBytes s.dataAddr (x.val + 1))).addToI (x.val + 1)).advance 2)
  | stall (x : Reg) : Completes s (.ldVxKey x) s

/-- Where the outcome is a running state, it is one that `i` completes in. -/
def CompletesOrFaults (s : State) (i : Instr) (o : Host.Outcome State Fault Refusal) : Prop :=
  ∀ t, o = .next t → Running t → Completes s i t

theorem CompletesOrFaults.completes {s t : State} {i : Instr} (h : Completes s i t) :
    CompletesOrFaults s i (.next t) := by
  rintro _ ⟨⟩ -
  exact h

theorem not_running_afterFault (s : State) (r : FaultRecord) : ¬Running (s.afterFault r) := by
  simp [Running]

theorem CompletesOrFaults.faults (s : State) (i : Instr) (r : FaultRecord) : CompletesOrFaults s i (raise s r) := by
  rintro _ ⟨⟩ hrun
  exact absurd hrun (not_running_afterFault s r)

/-- Under `RESERVED_WRITE = fault` a write that is carried out is in memory and above the reserved range. -/
theorem memWrite_fault_eq_ok {s t : State} {a : Nat} {bs : List Byte} (hne : bs ≠ [])
    (h : memWrite .fault s a bs = .ok t) :
    t = { s with mem := s.mem.writeBytes a bs } ∧ 0x1FF < a ∧ a + bs.length ≤ 0x1000 := by
  obtain ⟨ht, hbound, hres⟩ := memWrite_eq_ok .fault s t a bs h
  exact ⟨ht, (hres rfl).resolve_left hne, hbound.resolve_left hne⟩

/-! ## The instructions that can fault -/

theorem execRet_completes (s : State) : CompletesOrFaults s .ret (execRet s) := by
  unfold execRet
  cases h : s.pop with
  | none => exact .faults s _ _
  | some p =>
    obtain ⟨a, t⟩ := p
    obtain ⟨k, hk, rfl, rfl⟩ := State.pop_eq_some s t a h
    exact .completes (.ret k hk)

theorem execCall_completes (nnn : Addr12) (s : State) : CompletesOrFaults s (.call nnn) (execCall nnn s) := by
  unfold execCall
  cases h : s.push s.pc with
  | none => exact .faults s _ _
  | some t =>
    obtain ⟨hsp, rfl⟩ := State.push_eq_some s t s.pc h
    exact .completes (.call nnn hsp)

theorem execDrw_completes (x y : Reg) (n : Nibble) (s : State) :
    CompletesOrFaults s (.drw x y n) (execDrw x y n s) := by
  unfold execDrw draw
  cases h : memRead s s.dataAddr n.toNat with
  | error e => exact .faults s _ _
  | ok rows =>
    cases memRead_eq_ok s _ _ rows h
    exact .completes (.drw x y n)

theorem execSkp_completes (x : Reg) (s : State) : CompletesOrFaults s (.skp x) (execSkp x s) := by
  unfold execSkp
  cases s.keyOperand x with
  | error value => exact .faults s _ _
  | ok k => exact .completes (.skip _)

theorem execSknp_completes (x : Reg) (s : State) : CompletesOrFaults s (.sknp x) (execSknp x s) := by
  unfold execSknp
  cases s.keyOperand x with
  | error value => exact .faults s _ _
  | ok k => exact .completes (.skip _)

theorem execLdBcd_completes (x : Reg) (s : State) : CompletesOrFaults s (.ldBcd x) (execLdBcd x s) := by
  unfold execLdBcd storeBcd
  cases h : memWrite Config.params.reservedWrite s s.dataAddr (bcdDigits (s.getV x)) with
  | error e => exact .faults s _ _
  | ok t =>
    obtain ⟨rfl, lo, hi⟩ := memWrite_fault_eq_ok (List.cons_ne_nil _ _) h
    exact .completes (.storeDigits x lo hi)

theorem execStoreRegs_completes (x : Reg) (s : State) :
    CompletesOrFaults s (.storeRegs x) (execStoreRegs x s) := by
  unfold execStoreRegs dump
  cases h : memWrite Config.params.reservedWrite s s.dataAddr (s.dumpRegs x) with
  | error e => exact .faults s _ _
  | ok t =>
    have hne : s.dumpRegs x ≠ [] := List.ne_nil_of_length_pos (by simp)
    obtain ⟨rfl, lo, hi⟩ := memWrite_fault_eq_ok hne h
    exact .completes (.storeRegs x lo (by simpa using hi))

theorem execLoadRegs_completes (x : Reg) (s : State) : CompletesOrFaults s (.loadRegs x) (execLoadRegs x s) := by
  unfold execLoadRegs
  cases h : memRead s s.dataAddr (x.val + 1) with
  | error e => exact .faults s _ _
  | ok bytes =>
    cases memRead_eq_ok s _ _ bytes h
    exact .completes (.loadRegs x)

/-! ## The key wait and the jumps, and all instructions together -/

theorem execLdVxKey_completes (x : Reg) (s : State) : CompletesOrFaults s (.ldVxKey x) (execLdVxKey x s) := by
  unfold execLdVxKey
  cases s.lowestKey with
  | none => exact .completes (.stall x)
  | some k => exact .completes (.reg x _ (List.mem_singleton_self x))

theorem absolute_le (nnn : Addr12) : (absolute nnn).toNat ≤ 0x10FE := by
  have := nnn.isLt
  rw [absolute_toNat]; omega

/-- The target of BNNN is not masked: its bound is the largest NNN plus the largest byte (40_control_flow R67). -/
theorem State.offsetTarget_le (s : State) (nnn : Addr12) : (s.offsetTarget nnn).toNat ≤ 0x10FE := by
  have := nnn.isLt
  have := (s.getV 0).isLt
  rw [State.offsetTarget_toNat]; omega

/-- Every instruction completes or faults. -/
theorem exec_completesOrFaults (i : Instr) (s : State) : CompletesOrFaults s i (exec i s) := by
  cases i with
  | sys => exact .faults s _ _
  | cls => exact .completes .cls
  | ret => exact execRet_completes s
  | jp nnn => exact .completes (.jump _ (absolute_le nnn))
  | call nnn => exact execCall_completes nnn s
  | jpV0 nnn => exact .completes (.jump _ (s.offsetTarget_le nnn))
  | seImm | sneImm | seReg | sneReg => exact .completes (.skip _)
  | ldImm x | addImm x | ldReg x | orReg x | andReg x | xorReg x | ldVxDt x =>
    exact .completes (.reg x _ (List.mem_singleton_self x))
  | addReg x | subReg x | shr x | subnReg x | shl x =>
    exact .completes (.regFlag x _ _ (List.mem_pair.mpr (.inl rfl)) (List.mem_pair.mpr (.inr rfl)))
  | rnd x nn => exact .completes (.rnd x nn)
  | ldI | ldFont => exact .completes (.index _ rfl)
  | addI x => exact .completes (.addI x)
  | ldDtVx | ldStVx => exact .completes (.timers _ _)
  | drw x y n => exact execDrw_completes x y n s
  | skp x => exact execSkp_completes x s
  | sknp x => exact execSknp_completes x s
  | ldVxKey x => exact execLdVxKey_completes x s
  | ldBcd x => exact execLdBcd_completes x s
  | storeRegs x => exact execStoreRegs_completes x s
  | loadRegs x => exact execLoadRegs_completes x s

theorem completes_of_exec {i : Instr} {s t : State} (h : exec i s = .next t) (hrun : Running t) :
    Completes s i t := exec_completesOrFaults i s t h hrun

/-! ## What a completed instruction leaves unchanged -/

namespace Completes

variable {s t : State} {i : Instr}

/-- CLS and DRW alone write the framebuffer and REDRAW (10_state R25, R27). -/
theorem sameDisplay (h : Completes s i t) (hcls : i ≠ .cls) (hdrw : ∀ x y n, i ≠ .drw x y n) :
    SameDisplay s t := by
  cases h with
  | cls => exact absurd rfl hcls
  | drw x y n => exact absurd rfl (hdrw x y n)
  | loadRegs x => simp [SameDisplay]
  | _ => exact ⟨rfl, rfl⟩

/-- CLS and DRW set REDRAW, and nothing else writes it (10_state R27). -/
theorem redraw_stays_true (h : Completes s i t) (hs : s.redraw = true) : t.redraw = true := by
  cases h with
  | cls | drw => rfl
  | loadRegs x => simpa using hs
  | _ => exact hs

/-- CALL and RET alone write the call stack (10_state R21). -/
theorem sameStack (h : Completes s i t) (hcall : ∀ nnn, i ≠ .call nnn) (hret : i ≠ .ret) : SameStack s t := by
  cases h with
  | call nnn => exact absurd rfl (hcall nnn)
  | ret => exact absurd rfl hret
  | loadRegs x => simp [SameStack]
  | _ => exact ⟨rfl, rfl⟩

theorem key (h : Completes s i t) : t.key = s.key := by
  cases h with
  | loadRegs x => simp
  | _ => rfl

theorem halted (h : Completes s i t) : t.halted = s.halted := by
  cases h with
  | loadRegs x => simp
  | _ => rfl

theorem sameRegsBut (h : Completes s i t) : SameRegsBut (writtenRegs i) s t := by
  intro k hk
  cases h with
  | reg x b hx => exact State.getV_setV_ne s x k b (ne_of_mem_of_not_mem hx hk).symm
  | regFlag x b flag hx hvf =>
    exact (State.getV_setFlag_ne _ k flag (ne_of_mem_of_not_mem hvf hk).symm).trans
      (State.getV_setV_ne s x k b (ne_of_mem_of_not_mem hx hk).symm)
  | rnd x nn => exact State.getV_setV_ne _ x k _ (List.ne_of_not_mem_cons hk)
  | drw => exact State.getV_setFlag_ne _ k _ (List.ne_of_not_mem_cons hk)
  | addI => exact State.getV_setFlag_ne _ k _ (List.ne_of_not_mem_cons hk)
  | loadRegs x =>
    have hlt : ¬k.val ≤ x.val := by simpa [writtenRegs] using hk
    simp [State.getV_fillRegs, hlt]
  | _ => rfl

/-- Every operation that writes I belongs to an instruction of `writesIndex` (10_state R20). -/
theorem sameIndex (h : Completes s i t) (hi : writesIndex i = false) : t.i = s.i := by
  cases h with
  | index a hw => cases hw.symm.trans hi
  | addI | storeRegs | loadRegs => cases hi
  | _ => rfl

end Completes

/-- Settles O45: an instruction that ends in a running core completed, and of the operations it may end in those of CLS
and DRW alone write the display. -/
theorem onlyDrawingChangesTheDisplay : Obligations.OnlyDrawingChangesTheDisplay := by
  intro i s t hx hrun
  have h := completes_of_exec hx hrun
  exact ⟨h.sameDisplay, h.redraw_stays_true⟩

/-- Settles O46: HALTED is none after the instruction, and a completed instruction leaves it as it was. -/
theorem stackKeysAndHaltAreGuarded : Obligations.StackKeysAndHaltAreGuarded := by
  intro i s t hx hrun
  have h := completes_of_exec hx hrun
  exact ⟨h.sameStack, h.key, h.halted.symm.trans hrun⟩

/-- Settles O48: each operation a completed instruction may end in holds what permits it to write a register or I. -/
theorem onlyDestinationsChange : Obligations.OnlyDestinationsChange := by
  intro i s t hx hrun
  have h := completes_of_exec hx hrun
  exact ⟨h.sameRegsBut, h.sameIndex⟩

end Sys2Proof.Machine
end

section
/-! SUPPORT. A step that ends in a running core (30_encoding R55), and the bounds of pc and of the stack entries in use
that every such step keeps (10_state R19, 40_control_flow R60, R67). -/

namespace Sys2Proof.Machine

/-- A step that ends in a running core fetched and decoded an instruction, completed it and ticked. -/
theorem step_eq_next_running {s t : State} (h : step s = .next t) (hrun : Running t) :
    ∃ op i u, Running s ∧ s.fetch = some op ∧ decode op = .ok i ∧ Completes s i u ∧ t = u.tick := by
  obtain ⟨hs, ⟨-, rfl⟩ | ⟨op, hf, ⟨e, -, rfl⟩ | ⟨i, u, hd, hx, rfl⟩⟩⟩ := step_cases s t h
  · exact absurd hrun (not_running_afterFault s _)
  · exact absurd hrun (not_running_afterFault s _)
  · have hu : Running u := by
      by_contra hu
      rw [if_pos (Option.isSome_iff_ne_none.mpr hu)] at hrun
      exact hu hrun
    have hnot : ¬u.halted.isSome = true := by simp [hu]
    exact ⟨op, i, u, hs, hf, hd, completes_of_exec hx hu, if_neg hnot⟩

/-- An opcode is fetched only where both of its bytes are in memory (30_encoding R54). -/
theorem State.pc_le_of_fetch {s : State} {op : Word} (h : s.fetch = some op) : s.pc.toNat ≤ 0xFFE := by
  unfold State.fetch at h
  split_ifs at h with hpc
  omega

/-- Every stack entry in use is at most 0xFFE. -/
def EntriesBounded (s : State) : Prop := ∀ k : Fin 16, k.val < s.sp.val → (s.stack.get k).toNat ≤ 0xFFE

theorem EntriesBounded.of_sameStack {s t : State} (hs : EntriesBounded s) (h : SameStack s t) :
    EntriesBounded t := by
  obtain ⟨hstack, hsp⟩ := h
  rwa [EntriesBounded, hstack, hsp]

theorem returnsBounded_iff (s : State) :
    ReturnsBounded s ↔ (Running s → s.pc.toNat ≤ 0x10FE ∧ EntriesBounded s) :=
  Iff.rfl

theorem State.advance_two_pc_le {s : State} (h : s.pc.toNat ≤ 0xFFE) : (s.advance 2).pc.toNat ≤ 0x10FE := by
  rw [State.advance_pc_toNat]; omega

theorem State.skipIf_pc_le {s : State} (h : s.pc.toNat ≤ 0xFFE) (taken : Bool) :
    (s.skipIf taken).pc.toNat ≤ 0x10FE := by
  rw [State.skipIf_pc_toNat]; split <;> omega

/-- The farthest that pc gets is the target of BNNN; a fetched pc moves on by at most 4, and an entry by 2. -/
theorem Completes.pc_le {s t : State} {i : Instr} (h : Completes s i t) (hpc : s.pc.toNat ≤ 0xFFE)
    (hstack : EntriesBounded s) : t.pc.toNat ≤ 0x10FE := by
  cases h with
  | skip taken => exact State.skipIf_pc_le hpc taken
  | jump a ha => exact ha
  | call nnn => exact absolute_le nnn
  | ret k hk =>
    have hentry := hstack k (by omega)
    rw [BitVec.toNat_ofNat]; omega
  | stall => omega
  | loadRegs x => exact State.advance_two_pc_le (by simpa using hpc)
  | _ => exact State.advance_two_pc_le hpc

/-- CALL pushes the pc it was fetched from, RET only shortens the stack, and nothing else touches it. -/
theorem Completes.entriesBounded {s t : State} {i : Instr} (h : Completes s i t) (hpc : s.pc.toNat ≤ 0xFFE)
    (hstack : EntriesBounded s) : EntriesBounded t := by
  cases h with
  | call nnn hsp =>
    intro k hk
    change k.val < s.sp.val + 1 at hk
    rw [Vector.get_eq_getElem, Vector.getElem_set]
    split_ifs with hne
    · exact hpc
    · exact hstack k (by omega)
  | ret k hk =>
    intro j hj
    change j.val < k.val at hj
    exact hstack j (by omega)
  | loadRegs x => exact hstack.of_sameStack (by simp [SameStack])
  | _ => exact hstack

/-- Settles O51: the instruction was fetched, so its pc is at most 0xFFE, from where a completed instruction keeps both
bounds, and the tick touches neither. -/
theorem stepKeepsReturnsBounded : Obligations.StepKeepsReturnsBounded := by
  intro s t hs hstep
  rw [returnsBounded_iff] at hs ⊢
  intro hrun
  obtain ⟨op, i, u, hrunning, hf, -, hu, rfl⟩ := step_eq_next_running hstep hrun
  obtain ⟨-, hstack⟩ := hs hrunning
  have hpc := State.pc_le_of_fetch hf
  exact ⟨hu.pc_le hpc hstack, hu.entriesBounded hpc hstack⟩

end Sys2Proof.Machine
end

section
/-! SUPPORT. What an instruction that raises no fault, and a step, do to memory: which bytes are stored (20_memory R33),
that none of them is in the reserved range (20_memory R40), and what is read back where registers were stored
(20_memory R45). -/

namespace Sys2Proof.Machine

/-! ## The bytes a completed instruction stores -/

theorem Memory.read_writeBytes_outside {m : Memory} {a k : Nat} {bs : List Byte}
    (h : ¬(a ≤ k ∧ k < a + bs.length)) : (m.writeBytes a bs).read k = m.read k := by
  rw [Memory.read_writeBytes, if_neg h]

namespace Completes

variable {s t : State} {i : Instr}

/-- A completed instruction leaves memory alone, or writes the one block that `storedBytes` names, inside memory and
above the reserved range. -/
theorem mem_cases (h : Completes s i t) :
    t.mem = s.mem ∨ ∃ bs : List Byte, t.mem = s.mem.writeBytes s.dataAddr bs ∧
      storedBytes s i = (s.dataAddr, bs.length) ∧ 0x1FF < s.dataAddr ∧ s.dataAddr + bs.length ≤ 0x1000 := by
  cases h with
  | storeDigits x lo hi => exact .inr ⟨_, rfl, rfl, lo, hi⟩
  | storeRegs x lo hi => exact .inr ⟨_, rfl, by simp [storedBytes], lo, by simpa using hi⟩
  | loadRegs x => exact .inl (by simp)
  | _ => exact .inl rfl

theorem sameMemoryOutside (h : Completes s i t) :
    SameMemoryOutside (storedBytes s i).1 (storedBytes s i).2 s t := by
  intro a ha
  rcases h.mem_cases with hmem | ⟨bs, hmem, hstored, -, -⟩
  · rw [hmem]
  · rw [hstored] at ha
    rw [hmem, Memory.read_writeBytes_outside ha]

/-- What is stored lies above the reserved range (20_memory R40, RESERVED_WRITE = fault). -/
theorem read_reserved (h : Completes s i t) {a : Nat} (ha : a ≤ Config.reservedEnd) :
    t.mem.read a = s.mem.read a := by
  rcases h.mem_cases with hmem | ⟨bs, hmem, -, lo, -⟩
  · rw [hmem]
  · have hout : ¬(s.dataAddr ≤ a ∧ a < s.dataAddr + bs.length) := fun hin => absurd (lo.trans_le hin.1) ha.not_gt
    rw [hmem, Memory.read_writeBytes_outside hout]

/-- What is stored lies in the address space, where a write keeps the canonical form. -/
theorem memoryCanonical (h : Completes s i t) (hs : MemoryCanonical s) : MemoryCanonical t := by
  rcases h.mem_cases with hmem | ⟨bs, hmem, -, -, hi⟩
  · exact (congrArg Memory.wf hmem).mpr hs
  · exact (congrArg Memory.wf hmem).mpr (Memory.wf_writeBytes s.mem s.dataAddr bs hs hi)

end Completes

/-- Settles O47: a completed instruction stores the block that `storedBytes` names, or nothing. -/
theorem onlyStoresChangeMemory : Obligations.OnlyStoresChangeMemory := by
  intro i s t hx hrun
  exact (completes_of_exec hx hrun).sameMemoryOutside

/-! ## Steps -/

/-- A step leaves the core running, or in the entry of a fault (60_exceptions R105). -/
theorem step_running_or_afterFault {s t : State} (h : step s = .next t) :
    Running t ∨ ∃ r, t = s.afterFault r := by
  obtain ⟨hs, ⟨-, rfl⟩ | ⟨op, -, ⟨e, -, rfl⟩ | ⟨i, u, -, hx, rfl⟩⟩⟩ := step_cases s t h
  · exact .inr ⟨_, rfl⟩
  · exact .inr ⟨_, rfl⟩
  · obtain ⟨v, hv, hends⟩ := exec_endsByRule i s
    obtain rfl : v = u := Host.Outcome.next.inj (hv.symm.trans hx)
    cases hends with
    | completes _ halted =>
      have hv : Running v := halted.trans hs
      rw [if_neg (by simp [hv])]
      exact .inl hv
    | faults r => exact .inr ⟨r, if_pos rfl⟩

/-- The memory of a fault's entry is unspecified, but in its canonical form (60_exceptions R105). -/
theorem memoryCanonical_afterFault (s : State) (r : FaultRecord) : MemoryCanonical (s.afterFault r) :=
  Memory.wf_ofBytes _

/-- Settles O49: a fault's entry is canonical whatever came before, and a step that raises none completes an
instruction, which keeps the canonical form, and ticks. -/
theorem stepKeepsMemoryCanonical : Obligations.StepKeepsMemoryCanonical := by
  intro s t hs hstep
  rcases step_running_or_afterFault hstep with hrun | ⟨r, rfl⟩
  · obtain ⟨op, i, u, -, -, -, hu, rfl⟩ := step_eq_next_running hstep hrun
    exact hu.memoryCanonical hs
  · exact memoryCanonical_afterFault s r

/-- Settles O50: a step that ends in a running core completed an instruction, which leaves the reserved range as it
was, and the tick leaves memory alone. -/
theorem stepKeepsReservedRange : Obligations.StepKeepsReservedRange := by
  intro s t hs hstep hrun a ha
  obtain ⟨op, i, u, hrunning, -, -, hu, rfl⟩ := step_eq_next_running hstep hrun
  calc u.tick.mem.read a = s.mem.read a := hu.read_reserved ha
    _ = Memory.unlisted a := hs hrunning a ha

/-! ## Stored registers read back and fetched -/

/-- FX55 that raised no fault: the block was above the reserved range and in memory, and the registers are stored there
(44_index_memory R94). -/
theorem exec_storeRegs_eq_next_running {x : Reg} {s t : State} (h : exec (.storeRegs x) s = .next t)
    (hrun : Running t) :
    0x1FF < s.dataAddr ∧ s.dataAddr + (x.val + 1) ≤ 0x1000 ∧
      t = ({ s with mem := s.mem.writeBytes s.dataAddr (s.dumpRegs x) }.addToI (x.val + 1)).advance 2 := by
  change dump .fault x s = .next t at h
  unfold dump at h
  cases hw : memWrite .fault s s.dataAddr (s.dumpRegs x) with
  | error e =>
    rw [hw] at h
    cases h
    exact absurd hrun (not_running_afterFault s _)
  | ok u =>
    rw [hw] at h
    cases h
    have hne : s.dumpRegs x ≠ [] := List.ne_nil_of_length_pos (by simp)
    obtain ⟨rfl, lo, hi⟩ := memWrite_fault_eq_ok hne hw
    exact ⟨lo, by simpa using hi, rfl⟩

theorem read_of_exec_storeRegs {x k : Reg} {s t : State} (h : exec (.storeRegs x) s = .next t)
    (hrun : Running t) (hk : k ≤ x) : t.mem.read (s.dataAddr + k.val) = s.getV k := by
  obtain ⟨-, -, rfl⟩ := exec_storeRegs_eq_next_running h hrun
  have hle : k.val ≤ x.val := hk
  have hin : s.dataAddr ≤ s.dataAddr + k.val ∧ s.dataAddr + k.val < s.dataAddr + (s.dumpRegs x).length := by
    rw [State.length_dumpRegs]; omega
  calc (s.mem.writeBytes s.dataAddr (s.dumpRegs x)).read (s.dataAddr + k.val)
      = (s.dumpRegs x).getD k.val 0 := by rw [Memory.read_writeBytes, if_pos hin, Nat.add_sub_cancel_left]
    _ = s.getV k := s.getD_dumpRegs x k hle

/-- Where both bytes are in memory the fetch reads them, the first one high (30_encoding R54). -/
theorem State.fetch_of_pc_le {s : State} (h : s.pc.toNat + 1 ≤ 0xFFF) :
    s.fetch = some (opcodeOf (s.mem.read s.pc.toNat) (s.mem.read (s.pc.toNat + 1))) :=
  if_neg h.not_gt

/-- Settles O44: the dump raised no fault, so both bytes are in memory, where the fetch reads the two registers. -/
theorem storedBytesAreFetched : Obligations.StoredBytesAreFetched := by
  intro x k l s t hrun hx hl hkl p hp
  have hlx : l.val ≤ x.val := hl
  have hhigh : t.mem.read p.toNat = s.getV k := by
    rw [hp]
    exact read_of_exec_storeRegs hx hrun (show k.val ≤ x.val by omega)
  have hlow : t.mem.read (p.toNat + 1) = s.getV l := by
    rw [hp, Nat.add_assoc, hkl]
    exact read_of_exec_storeRegs hx hrun hl
  obtain ⟨-, hi, -⟩ := exec_storeRegs_eq_next_running hx hrun
  have hpc : p.toNat + 1 ≤ 0xFFF := by
    unfold State.dataAddr at hi; omega
  refine ⟨_, State.fetch_of_pc_le hpc, ?_⟩
  rw [opcodeOf_toNat, hhigh, hlow]

end Sys2Proof.Machine
end

section
/-! SUPPORT. The two round trips of the decoder and the encoder under DECODE_STRICT (30_encoding R50, R51), and the
opcodes the decoder refuses (R52). -/

namespace Sys2Proof

/-! ## Comparing a field with a number -/

theorem opCategory_eq_iff {op : Word} {c : Nibble} : opCategory op = c ↔ op.toNat / 4096 = c.toNat := by
  rw [← BitVec.toNat_inj, opCategory_toNat]

theorem opN_eq_iff {op : Word} {n : Nibble} : opN op = n ↔ op.toNat % 16 = n.toNat := by
  rw [← BitVec.toNat_inj, opN_toNat]

theorem opNN_eq_iff {op : Word} {nn : Byte} : opNN op = nn ↔ op.toNat % 256 = nn.toNat := by
  rw [← BitVec.toNat_inj, opNN_toNat]

/-! ## Decoding an encoding -/

theorem sysFieldOk_iff (nnn : Addr12) : sysFieldOk nnn = true ↔ nnn ≠ 0x0E0 ∧ nnn ≠ 0x0EE := by
  rw [sysFieldOk, Bool.and_eq_true, decide_eq_true_iff, decide_eq_true_iff]

theorem decodeCategory0_strict_of_ne {op : Word} (hcls : op ≠ 0x00E0) (hret : op ≠ 0x00EE) :
    decodeCategory0 true op = .sys (opNNN op) := by
  simp only [decodeCategory0, hcls, hret, if_false, Bool.true_eq_false, false_and]

theorem decodeWith_category0 (strict : Bool) {op : Word} (hc : opCategory op = 0x0) :
    decodeWith strict op = .ok (decodeCategory0 strict op) :=
  if_pos hc

/-- 0NNN is SYS when its address field is neither that of CLS nor that of RET (40_control_flow R59). -/
theorem decode_encode_sys {nnn : Addr12} (h : sysFieldOk nnn = true) : decode (encode (.sys nnn)) = .ok (.sys nnn) := by
  obtain ⟨hcls, hret⟩ := (sysFieldOk_iff nnn).mp h
  have hop : opNNN (wordNNN 0x0 nnn) = nnn := opNNN_wordNNN 0x0 nnn
  have hcls' : wordNNN 0x0 nnn ≠ 0x00E0 := fun hw => hcls (hop.symm.trans (congrArg opNNN hw))
  have hret' : wordNNN 0x0 nnn ≠ 0x00EE := fun hw => hret (hop.symm.trans (congrArg opNNN hw))
  calc decode (wordNNN 0x0 nnn)
      = .ok (decodeCategory0 true (wordNNN 0x0 nnn)) := decodeWith_category0 true (opCategory_wordNNN 0x0 nnn)
    _ = .ok (.sys nnn) := by rw [decodeCategory0_strict_of_ne hcls' hret', hop]

/-- The category and, where it does not settle the instruction, the selecting nibble or byte are those the encoding form
was given, so the decoder takes that row of 30_encoding R51; the operands are the form's other fields. -/
theorem decode_encode {i : Instr} (h : WellFormed i = true) : decode (encode i) = .ok i := by
  cases i with
  | sys nnn => exact decode_encode_sys h
  | cls | ret => rfl
  | ldReg | orReg | andReg | xorReg | addReg | subReg | shr | subnReg | shl =>
    simp [decode, encode, decodeWith, decodeCategory8]
  | skp | sknp => simp [decode, encode, decodeWith, decodeCategoryE]
  | ldVxDt | ldVxKey | ldDtVx | ldStVx | addI | ldFont | ldBcd | storeRegs | loadRegs =>
    simp [decode, encode, decodeWith, decodeCategoryF]
  | _ => simp [decode, encode, decodeWith]

theorem decode_of_encode_eq {op : Word} {i : Instr} (hw : WellFormed i = true) (h : encode i = op) :
    decode op = .ok i := by
  rw [← h, decode_encode hw]

/-- Settles O1: constructor by constructor, each in the row of 30_encoding R51 its encoding form fits. -/
theorem encodeThenDecode : Obligations.EncodeThenDecode :=
  fun _ => decode_encode

/-- Settles O4: each of the ten opcodes is the encoding of the instruction it stands for. -/
theorem sampleOpcodesDecode : Obligations.SampleOpcodesDecode := by
  unfold Obligations.SampleOpcodesDecode
  refine ⟨?_, ?_, ?_, ?_, ?_, ?_, ?_, ?_, ?_, ?_⟩ <;> exact decode_of_encode_eq rfl rfl

/-! ## Encoding what was decoded -/

/-- The decoder answers SYS for no opcode of CLS or RET, and no other constructor has an ill-formed operand. -/
theorem wellFormed_of_decode {op : Word} {i : Instr} (h : decode op = .ok i) : WellFormed i = true := by
  cases i with
  | sys nnn =>
    rw [← encode_of_decode h] at h
    have hcls : nnn ≠ 0x0E0 := by rintro rfl; cases h
    have hret : nnn ≠ 0x0EE := by rintro rfl; cases h
    exact (sysFieldOk_iff nnn).mpr ⟨hcls, hret⟩
  | _ => rfl

/-- Settles O2: `encode_of_decode`, category by category, and what is decoded is well-formed. -/
theorem decodeThenEncode : Obligations.DecodeThenEncode :=
  fun _ _ h => ⟨wellFormed_of_decode h, encode_of_decode h⟩

/-! ## The opcodes that are refused -/

/-- A row that answers an instruction is not the one that refuses the opcode. -/
theorem ite_ok_eq_error_iff {c : Prop} [Decidable c] {i : Instr} {r : Except DecodeError Instr} {e : DecodeError} :
    (if c then .ok i else r) = .error e ↔ ¬c ∧ r = .error e := by
  split_ifs with hc <;> simp [hc]

theorem decodeCategory8_eq_error_iff (op : Word) : decodeCategory8 op = .error (.unknownOpcode op) ↔
    op.toNat % 16 ∈ [0x8, 0x9, 0xA, 0xB, 0xC, 0xD, 0xF] := by
  simp only [decodeCategory8, ite_ok_eq_error_iff, and_true, ← opN_toNat]
  generalize opN op = n
  revert n
  decide

theorem decodeCategoryE_eq_error_iff (op : Word) : decodeCategoryE op = .error (.unknownOpcode op) ↔
    op.toNat % 256 ∉ [0x9E, 0xA1] := by
  simp [decodeCategoryE, ite_ok_eq_error_iff, opNN_eq_iff]

theorem decodeCategoryF_eq_error_iff (op : Word) : decodeCategoryF op = .error (.unknownOpcode op) ↔
    op.toNat % 256 ∉ [0x07, 0x0A, 0x15, 0x18, 0x1E, 0x29, 0x33, 0x55, 0x65] := by
  simp [decodeCategoryF, ite_ok_eq_error_iff, opNN_eq_iff]

/-- The refused opcodes by category: a fixed category refuses none, and 5 and 9 refuse by the unused nibble. -/
theorem decode_eq_error_iff (op : Word) : decode op = .error (.unknownOpcode op) ↔
    (opCategory op = 0x5 ∧ opN op ≠ 0x0) ∨
    (opCategory op = 0x8 ∧ decodeCategory8 op = .error (.unknownOpcode op)) ∨
    (opCategory op = 0x9 ∧ opN op ≠ 0x0) ∨
    (opCategory op = 0xE ∧ decodeCategoryE op = .error (.unknownOpcode op)) ∨
    (opCategory op = 0xF ∧ decodeCategoryF op = .error (.unknownOpcode op)) := by
  change decodeWith true op = _ ↔ _
  rcases opCategory_cases op with
    hc | hc | hc | hc | hc | hc | hc | hc | hc | hc | hc | hc | hc | hc | hc | hc <;>
    simp [decodeWith, hc]

/-- SYS is answered for its own encodings, by the round trips: the category 0 opcodes but those of CLS and RET. -/
theorem decode_eq_sys_iff (op : Word) :
    (∃ nnn, decode op = .ok (.sys nnn)) ↔ op.toNat < 0x1000 ∧ op.toNat ≠ 0x00E0 ∧ op.toNat ≠ 0x00EE := by
  constructor
  · rintro ⟨nnn, h⟩
    obtain ⟨hcls, hret⟩ := (sysFieldOk_iff nnn).mp (wellFormed_of_decode h)
    have hop : op.toNat = nnn.toNat := by rw [← encode_of_decode h, encode, wordNNN_toNat]; simp
    rw [hop]
    exact ⟨nnn.isLt, fun hn => hcls (BitVec.eq_of_toNat_eq hn), fun hn => hret (BitVec.eq_of_toNat_eq hn)⟩
  · rintro ⟨hlt, hcls, hret⟩
    have hc : opCategory op = 0x0 := opCategory_eq_iff.mpr (Nat.div_eq_of_lt hlt)
    have hsys : decodeCategory0 true op = .sys (opNNN op) :=
      decodeCategory0_strict_of_ne (ne_of_apply_ne BitVec.toNat hcls) (ne_of_apply_ne BitVec.toNat hret)
    exact ⟨opNNN op, (decodeWith_category0 true hc).trans (congrArg Except.ok hsys)⟩

/-- Settles O3: the refusals of each category, with its fields read as numbers, and the opcodes of SYS. -/
theorem illegalOpcodesAreRefusedOrSys : Obligations.IllegalOpcodesAreRefusedOrSys := by
  intro op
  refine ⟨?_, decode_eq_sys_iff op⟩
  rw [decode_eq_error_iff, decodeCategory8_eq_error_iff, decodeCategoryE_eq_error_iff, decodeCategoryF_eq_error_iff]
  simp only [ne_eq, opCategory_eq_iff, opN_eq_iff]
  exact Iff.rfl

end Sys2Proof
end

section
/-! SUPPORT. What DECODE_STRICT = false changes (30_encoding R51). -/

namespace Sys2Proof

theorem decodeCategory0_lenient_cls {op : Word} (h : opNN op = 0xE0) : decodeCategory0 false op = .cls := by
  have hret : op ≠ 0x00EE := by rintro rfl; exact absurd h (by decide)
  simp only [decodeCategory0, h, hret, if_false, and_self, if_true, ite_self]

theorem decodeCategory0_lenient_ret {op : Word} (h : opNN op = 0xEE) : decodeCategory0 false op = .ret := by
  have hcls : op ≠ 0x00E0 := by rintro rfl; exact absurd h (by decide)
  have hne : (0xEE : Byte) ≠ 0xE0 := by decide
  simp only [decodeCategory0, h, hcls, hne, and_false, if_false, and_self, if_true, ite_self]

theorem decodeCategory0_lenient_of_ne {op : Word} (hcls : opNN op ≠ 0xE0) (hret : opNN op ≠ 0xEE) :
    decodeCategory0 false op = decodeCategory0 true op := by
  simp only [decodeCategory0, hcls, hret, and_false, if_false]

/-- Outside categories 0, 5 and 9 the decoder does not read DECODE_STRICT. -/
theorem decodeWith_lenient_of_category_ne {op : Word} (h0 : opCategory op ≠ 0x0) (h5 : opCategory op ≠ 0x5)
    (h9 : opCategory op ≠ 0x9) : decodeWith false op = decodeWith true op := by
  simp only [decodeWith, h0, h5, h9, if_false]

/-- Settles O5: the three rows by their own equations; no other category, and no other low byte of category 0, reads
DECODE_STRICT. -/
theorem lenientDecodeRows : Obligations.LenientDecodeRows := by
  intro op
  refine ⟨fun h0 hb => ?_, fun h0 hb => ?_, fun h5 => ?_, fun h9 => ?_, fun h0 h5 h9 => ?_⟩
  · rw [decodeWith_category0 false (opCategory_eq_iff.mpr h0), decodeCategory0_lenient_cls (opNN_eq_iff.mpr hb)]
  · rw [decodeWith_category0 false (opCategory_eq_iff.mpr h0), decodeCategory0_lenient_ret (opNN_eq_iff.mpr hb)]
  · have hc : opCategory op = 0x5 := opCategory_eq_iff.mpr h5
    simp [decodeWith, hc]
  · have hc : opCategory op = 0x9 := opCategory_eq_iff.mpr h9
    simp [decodeWith, hc]
  · by_cases hc : opCategory op = 0x0
    · have hmem : op.toNat % 256 ∉ [0xE0, 0xEE] := fun hm => h0 ⟨opCategory_eq_iff.mp hc, hm⟩
      have hcls : opNN op ≠ 0xE0 := fun hb => hmem (by simp [opNN_eq_iff.mp hb])
      have hret : opNN op ≠ 0xEE := fun hb => hmem (by simp [opNN_eq_iff.mp hb])
      rw [decodeWith_category0 false hc, decodeWith_category0 true hc, decodeCategory0_lenient_of_ne hcls hret]
    · exact decodeWith_lenient_of_category_ne hc (mt opCategory_eq_iff.mp h5) (mt opCategory_eq_iff.mp h9)

end Sys2Proof
end

section
/-! SUPPORT. The fetch and the step (30_encoding R54, R55). -/

namespace Sys2Proof.Machine

theorem State.fetch_of_pc_gt {s : State} (h : s.pc.toNat + 1 > 0xFFF) : s.fetch = none :=
  if_pos h

/-- Settles O6: the fetch on each side of its bound. -/
theorem fetchIsBigEndianOrFaults : Obligations.FetchIsBigEndianOrFaults := by
  intro s
  constructor
  · intro hpc
    exact ⟨_, State.fetch_of_pc_le hpc, opcodeOf_toNat _ _⟩
  · intro hpc hrun
    exact step_of_fetch_none hrun (State.fetch_of_pc_gt hpc)

/-- Settles O7: every instruction answers a next state, and from there the step is `step_of_decode`. -/
theorem stepRunsDecodedInstruction : Obligations.StepRunsDecodedInstruction := by
  intro s op i hrun hf hd
  obtain ⟨t, ht⟩ := exec_eq_next i s
  rw [step_of_decode s t op i hrun hf hd ht, ht]

end Sys2Proof.Machine
end

section
/-! SUPPORT. An encoding read as a number (30_encoding R50), and the frames of an instruction that writes pc alone and
of one that writes the call stack too. -/

namespace Sys2Proof.Machine

theorem encode_eq_ofNat {i : Instr} {w : Nat} (h : (encode i).toNat = w) : encode i = BitVec.ofNat 16 w := by
  rw [← h, BitVec.ofNat_toNat, BitVec.setWidth_eq]

/-- The number of a well-formed instruction's encoding decodes to it, by the round trip. -/
theorem encodes_of_toNat_eq {i : Instr} {w : Nat} (hw : WellFormed i = true) (h : (encode i).toNat = w) :
    Encodes i w :=
  ⟨h, decode_of_encode_eq hw (encode_eq_ofNat h)⟩

theorem onlyRegsStack_setCallStack (s : State) (stack : Vector Word 16) (sp : Fin 17) (pc : Word) :
    OnlyRegsStack [] s { s with stack := stack, sp := sp, pc := pc } :=
  ⟨fun _ _ => rfl, rfl, ⟨rfl, rfl⟩, ⟨rfl, rfl⟩, ⟨rfl, rfl⟩, fun _ => rfl⟩

theorem onlyRegs_setPc (s : State) (pc : Word) : OnlyRegs [] s { s with pc := pc } :=
  ⟨onlyRegsStack_setCallStack s s.stack s.sp pc, rfl, rfl⟩

end Sys2Proof.Machine
end

section
/-! SUPPORT. CALL and RET by the depth of the call stack (10_state R22, R23; 40_control_flow R60, R62). -/

namespace Sys2Proof.Machine

/-- The state after CALL NNN where `k` entries are in use: its own address is entry `k`. -/
def State.called (s : State) (nnn : Addr12) (k : Fin 16) : State :=
  { s with stack := s.stack.set k.val s.pc, sp := k.succ, pc := absolute nnn }

/-- The state after RET where entry `k` is the top one: pc is behind the address it holds. -/
def State.returned (s : State) (k : Fin 16) : State :=
  { s with sp := k.castSucc, pc := BitVec.ofNat 16 ((s.stack.get k).toNat + 2) }

theorem State.called_entry_self (s : State) (nnn : Addr12) (k : Fin 16) : (s.called nnn k).stack.get k = s.pc := by
  simp [State.called, Vector.get_eq_getElem]

theorem State.called_entry_ne (s : State) (nnn : Addr12) {k j : Fin 16} (h : j ≠ k) :
    (s.called nnn k).stack.get j = s.stack.get j := by
  simp [State.called, Vector.get_eq_getElem, Fin.val_ne_of_ne h.symm]

theorem State.returned_pc_toNat (s : State) (k : Fin 16) :
    (s.returned k).pc.toNat = ((s.stack.get k).toNat + 2) % 65536 :=
  BitVec.toNat_ofNat _ _

/-! ## CALL -/

theorem exec_call_of_room {s : State} {k : Fin 16} (nnn : Addr12) (hk : k.val = s.sp.val) :
    exec (.call nnn) s = .next (s.called nnn k) := by
  change execCall nnn s = _
  unfold execCall
  cases h : s.push s.pc with
  | none =>
    have := (s.push_eq_none s.pc).mp h
    omega
  | some t =>
    obtain ⟨hlt, rfl⟩ := State.push_eq_some s t s.pc h
    obtain rfl : k = ⟨s.sp.val, hlt⟩ := Fin.ext hk
    rfl

theorem exec_call_of_full {s : State} (nnn : Addr12) (h : s.sp.val = 16) :
    exec (.call nnn) s = .next (s.afterFault (.stackOverflow (encode (.call nnn)) s.pc)) := by
  change execCall nnn s = _
  rw [execCall, (s.push_eq_none s.pc).mpr h]
  rfl

/-- A CALL that raised no fault found room on the stack. -/
theorem exec_call_eq_next_running {nnn : Addr12} {s t : State} (h : exec (.call nnn) s = .next t) (hrun : Running t) :
    ∃ k : Fin 16, k.val = s.sp.val ∧ t = s.called nnn k := by
  rcases Nat.lt_or_eq_of_le s.sp.is_le with hlt | hfull
  · rw [exec_call_of_room (k := ⟨s.sp.val, hlt⟩) nnn rfl] at h
    cases h
    exact ⟨⟨s.sp.val, hlt⟩, rfl, rfl⟩
  · rw [exec_call_of_full nnn hfull] at h
    cases h
    exact absurd hrun (not_running_afterFault s _)

theorem encodes_call (nnn : Addr12) : Encodes (.call nnn) (0x2000 + nnn.toNat) :=
  encodes_of_toNat_eq rfl (wordNNN_toNat 0x2 nnn)

/-- Settles O18: `State.called` while there is room, and the fault's entry with the opcode as a number when full. -/
theorem callPushesOwnAddress : Obligations.CallPushesOwnAddress := by
  intro nnn s
  refine ⟨encodes_call nnn, fun k hk => ?_, fun hfull => ?_⟩
  · exact ⟨s.called nnn k, exec_call_of_room nnn hk, absolute_toNat nnn, s.called_entry_self nnn k,
      fun _ hj => s.called_entry_ne nnn hj, congrArg (· + 1) hk, onlyRegsStack_setCallStack s _ _ _⟩
  · rw [exec_call_of_full nnn hfull, encode_eq_ofNat (encodes_call nnn).1]

/-! ## RET -/

theorem exec_ret_of_entry {s : State} {k : Fin 16} (hk : k.val + 1 = s.sp.val) :
    exec .ret s = .next (s.returned k) := by
  change execRet s = _
  unfold execRet
  cases h : s.pop with
  | none =>
    have := s.pop_eq_none.mp h
    omega
  | some p =>
    obtain ⟨a, t⟩ := p
    obtain ⟨j, hj, rfl, rfl⟩ := State.pop_eq_some s t a h
    obtain rfl : k = j := by omega
    rfl

theorem exec_ret_of_empty {s : State} (h : s.sp.val = 0) :
    exec .ret s = .next (s.afterFault (.stackUnderflow 0x00EE s.pc)) := by
  change execRet s = _
  rw [execRet, s.pop_eq_none.mpr h]
  rfl

/-- Settles O16: `State.returned` while an entry is in use, and the fault's entry when none is. -/
theorem retReturnsAfterCall : Obligations.RetReturnsAfterCall := by
  intro s
  refine ⟨encodes_of_toNat_eq rfl rfl, fun k hk => ?_, exec_ret_of_empty⟩
  exact ⟨s.returned k, exec_ret_of_entry hk, s.returned_pc_toNat k, rfl, rfl, onlyRegsStack_setCallStack s _ _ _⟩

/-- Settles O22: the entry RET finds on top is the one CALL pushed, its own address, and CALL wrote no other. -/
theorem callThenRetResumes : Obligations.CallThenRetResumes := by
  intro nnn s t u hrun hcall hstack hsp
  obtain ⟨k, hk, rfl⟩ := exec_call_eq_next_running hcall hrun
  have htop : k.val + 1 = u.sp.val := (congrArg Fin.val hsp).symm
  refine ⟨u.returned k, exec_ret_of_entry htop, ?_, Fin.ext hk, fun j hj => ?_⟩
  · rw [State.returned_pc_toNat, hstack, State.called_entry_self]
  · have hne : j ≠ k := by omega
    calc u.stack.get j
        = (s.called nnn k).stack.get j := by rw [hstack]
      _ = s.stack.get j := s.called_entry_ne nnn hne

end Sys2Proof.Machine
end

section
/-! SUPPORT. SYS, the jumps and the skips (40_control_flow R59, R61, R63 to R67). -/

namespace Sys2Proof.Machine

theorem encode_sys_toNat (nnn : Addr12) : (encode (.sys nnn)).toNat = nnn.toNat :=
  (wordNNN_toNat 0x0 nnn).trans (Nat.zero_add _)

/-- Settles O15: SYS raises with its own encoding, whose number is NNN. -/
theorem sysRaisesUnknownOpcode : Obligations.SysRaisesUnknownOpcode := by
  intro nnn s
  refine ⟨fun hw => encodes_of_toNat_eq hw (encode_sys_toNat nnn), ?_⟩
  rw [← encode_eq_ofNat (encode_sys_toNat nnn)]
  rfl

/-- Settles O17: NNN zero-extended is the new pc, the one field that JP writes. -/
theorem jpSetsPc : Obligations.JpSetsPc := by
  intro nnn s
  exact ⟨encodes_of_toNat_eq rfl (wordNNN_toNat 0x1 nnn), _, rfl, absolute_toNat nnn, onlyRegs_setPc s _⟩

/-- Settles O21: the sum is below 65536, so `trunc_16` leaves it whole. -/
theorem jpV0AddsOffset : Obligations.JpV0AddsOffset := by
  intro nnn s
  exact ⟨encodes_of_toNat_eq rfl (wordNNN_toNat 0xB nnn), _, rfl, s.offsetTarget_toNat nnn, onlyRegs_setPc s _⟩

/-! ## Skips (30_encoding R56) -/

theorem onlyRegs_skipIf (s : State) (taken : Bool) : OnlyRegs [] s (s.skipIf taken) :=
  onlyRegs_setPc s _

theorem State.skipIf_eq_pc_toNat (s : State) (a b : Byte) :
    (s.skipIf (a == b)).pc.toNat = (s.pc.toNat + if a = b then 4 else 2) % 65536 := by
  simp only [State.skipIf_pc_toNat, beq_iff_eq]

theorem State.skipIf_ne_pc_toNat (s : State) (a b : Byte) :
    (s.skipIf (a != b)).pc.toNat = (s.pc.toNat + if a = b then 2 else 4) % 65536 := by
  simp only [State.skipIf_pc_toNat, bne_iff_ne, ne_eq, ite_not]

/-- Settles O19: each skip is `State.skipIf` of its comparison. -/
theorem skipOnImmediate : Obligations.SkipOnImmediate := by
  intro x nn s
  refine ⟨encodes_of_toNat_eq rfl (wordXNN_toNat 0x3 x nn), encodes_of_toNat_eq rfl (wordXNN_toNat 0x4 x nn), ?_, ?_⟩
  · exact ⟨_, rfl, s.skipIf_eq_pc_toNat (s.getV x) nn, onlyRegs_skipIf s _⟩
  · exact ⟨_, rfl, s.skipIf_ne_pc_toNat (s.getV x) nn, onlyRegs_skipIf s _⟩

/-- Settles O20: the skips of O19 between two registers, their encodings with 0 for nibble 0. -/
theorem skipOnRegister : Obligations.SkipOnRegister := by
  intro x y s
  refine ⟨encodes_of_toNat_eq rfl (wordXYN_toNat 0x5 x y 0x0), encodes_of_toNat_eq rfl (wordXYN_toNat 0x9 x y 0x0),
    ?_, ?_⟩
  · exact ⟨_, rfl, s.skipIf_eq_pc_toNat (s.getV x) (s.getV y), onlyRegs_skipIf s _⟩
  · exact ⟨_, rfl, s.skipIf_ne_pc_toNat (s.getV x) (s.getV y), onlyRegs_skipIf s _⟩

end Sys2Proof.Machine
end

section
/-! SUPPORT. Register arithmetic and logic (41_alu R69 to R80): the two operations its instructions end in, `result` and
`resultFlag`, each said once, and the values they write read as numbers. -/

namespace Sys2Proof.Machine

open Sys2Proof.Laws

/-! ## The opcodes -/

/-- `Encodes` from the row of spec/opcode_table.json, for an instruction with the operand bits `a` and `b`. -/
theorem encodes_of_tableRow {i : Instr} {m a b : Nat} (hw : WellFormed i = true) (hrow : TableRow.Statement i)
    (hm : TableRow.rowMatch i = m) (hab : TableRow.operandBits i = a + b) : Encodes i (m + a + b) := by
  refine encodes_of_toNat_eq hw ?_
  rw [hrow, hm, hab, Nat.add_assoc]

/-! ## The two operations -/

/-- A write of the registers `xs` and of pc, whatever the model's counter does, leaves all else as it was. -/
theorem onlyRegs_setRegs {xs : List Reg} {s : State} {v : Vector Byte 16} {pc : Word} {free : Nat}
    (h : SameRegsBut xs s { s with v := v, pc := pc, free := free }) :
    OnlyRegs xs s { s with v := v, pc := pc, free := free } :=
  ⟨⟨h, rfl, ⟨rfl, rfl⟩, ⟨rfl, rfl⟩, ⟨rfl, rfl⟩, fun _ => rfl⟩, rfl, rfl⟩

/-- `result` writes Vx, of which `P` tells what the instruction says of the byte, and goes on by 2. -/
theorem result_writes (P : Byte → Prop) (s : State) (x : Reg) {b : Byte} (hb : P b) :
    ∃ t, result s x b = .next t ∧ P (t.getV x) ∧ t.pc.toNat = (s.pc.toNat + 2) % 65536 ∧ OnlyRegs [x] s t := by
  refine ⟨(s.setV x b).advance 2, rfl, ?_, State.advance_pc_toNat _ 2, onlyRegs_setRegs fun k hk => ?_⟩
  · rwa [State.getV_advance, State.getV_setV_self]
  · exact s.getV_setV_ne x k b (List.ne_of_not_mem_cons hk)

/-- `resultFlag` writes Vx and then VF, so that the byte stays where x is not F and the flag always (10_state R16). -/
theorem resultFlag_writes (P : Byte → Prop) (s : State) (x : Reg) {b : Byte} {flag : Bool} {n : Nat} (hb : P b)
    (hflag : (flagByte flag).toNat = n) :
    ∃ t, resultFlag s x b flag = .next t ∧ (x ≠ Reg.vf → P (t.getV x)) ∧ (t.getV Reg.vf).toNat = n ∧
      t.pc.toNat = (s.pc.toNat + 2) % 65536 ∧ OnlyRegs [x, Reg.vf] s t := by
  refine ⟨((s.setV x b).setFlag flag).advance 2, rfl, fun hx => ?_, ?_, State.advance_pc_toNat _ 2,
    onlyRegs_setRegs fun k hk => ?_⟩
  · rwa [State.getV_advance, State.getV_setFlag_ne _ x flag hx, State.getV_setV_self]
  · rwa [State.getV_advance, State.getV_setFlag_vf]
  · obtain ⟨hkx, hkvf⟩ : k ≠ x ∧ k ≠ Reg.vf := by simpa using hk
    exact (State.getV_setFlag_ne _ k flag hkvf).trans (s.getV_setV_ne x k b hkx)

/-! ## Loads, ADD Vx, NN and the logic: no flag -/

/-- Settles O23: `result` of the operand. -/
theorem loadsSetTheRegister : Obligations.LoadsSetTheRegister := by
  intro x y nn s
  refine ⟨encodes_of_tableRow rfl (TableRow.ldImm x nn) rfl rfl, encodes_of_tableRow rfl (TableRow.ldReg x y) rfl rfl,
    ?_, ?_⟩
  · exact result_writes (· = nn) s x rfl
  · exact result_writes (· = s.getV y) s x rfl

/-- Settles O24: the sum of two bytes is the sum of their numbers modulo 256. -/
theorem addImmWrapsWithoutFlag : Obligations.AddImmWrapsWithoutFlag := by
  intro x nn s
  refine ⟨encodes_of_tableRow rfl (TableRow.addImm x nn) rfl rfl, ?_⟩
  exact result_writes (fun b => b.toNat = ((s.getV x).toNat + nn.toNat) % 256) s x (BitVec.toNat_add _ _)

/-- Settles O25: the bits of the or, the and and the exclusive or of two bytes. -/
theorem logicIsBitwiseWithoutFlag : Obligations.LogicIsBitwiseWithoutFlag := by
  intro x y s
  refine ⟨encodes_of_tableRow rfl (TableRow.orReg x y) rfl rfl, encodes_of_tableRow rfl (TableRow.andReg x y) rfl rfl,
    encodes_of_tableRow rfl (TableRow.xorReg x y) rfl rfl, ?_, ?_, ?_⟩
  · exact result_writes (fun b => ∀ k, b.getLsbD k = ((s.getV x).getLsbD k || (s.getV y).getLsbD k)) s x
      fun _ => BitVec.getLsbD_or
  · exact result_writes (fun b => ∀ k, b.getLsbD k = ((s.getV x).getLsbD k && (s.getV y).getLsbD k)) s x
      fun _ => BitVec.getLsbD_and
  · exact result_writes (fun b => ∀ k, b.getLsbD k = ((s.getV x).getLsbD k ^^ (s.getV y).getLsbD k)) s x
      fun _ => BitVec.getLsbD_xor

/-! ## ADD, SUB and SUBN Vx, Vy: the carry and the borrow -/

theorem flagByte_carry_toNat (a b : Byte) :
    (flagByte (carry a b)).toNat = if a.toNat + b.toNat > 255 then 1 else 0 := by
  simp only [flagByte_toNat, carry, decide_eq_true_eq]

theorem flagByte_noBorrow_toNat (a b : Byte) :
    (flagByte (noBorrow a b)).toNat = if a.toNat ≥ b.toNat then 1 else 0 := by
  simp only [flagByte_toNat, noBorrow, decide_eq_true_eq]

theorem byte_sub_toNat_cast (a b : Byte) : ((a - b).toNat : Int) = ((a.toNat : Int) - b.toNat) % 256 := by
  have ha := a.isLt
  have hb := b.isLt
  rw [BitVec.toNat_sub]
  omega

/-- Settles O26: `resultFlag` of the sum and its carry. -/
theorem addRegCarriesIntoVF : Obligations.AddRegCarriesIntoVF := by
  intro x y s
  refine ⟨encodes_of_tableRow rfl (TableRow.addReg x y) rfl rfl, ?_⟩
  exact resultFlag_writes (fun b => b.toNat = ((s.getV x).toNat + (s.getV y).toNat) % 256) s x
    (BitVec.toNat_add _ _) (flagByte_carry_toNat _ _)

/-- SUB and SUBN alike: the difference of two bytes into Vx, and whether it borrowed into VF (41_alu R76, R78). -/
theorem resultFlag_sub_writes (s : State) (x : Reg) (a b : Byte) :
    ∃ t, resultFlag s x (a - b) (noBorrow a b) = .next t ∧
      (x ≠ Reg.vf → ((t.getV x).toNat : Int) = ((a.toNat : Int) - b.toNat) % 256) ∧
      (t.getV Reg.vf).toNat = (if a.toNat ≥ b.toNat then 1 else 0) ∧
      t.pc.toNat = (s.pc.toNat + 2) % 65536 ∧ OnlyRegs [x, Reg.vf] s t :=
  resultFlag_writes (fun c => (c.toNat : Int) = ((a.toNat : Int) - b.toNat) % 256) s x
    (byte_sub_toNat_cast a b) (flagByte_noBorrow_toNat a b)

/-- Settles O27: SUB and SUBN subtract alike, with their operands exchanged. -/
theorem subtractBorrowsIntoVF : Obligations.SubtractBorrowsIntoVF := by
  intro x y s
  refine ⟨encodes_of_tableRow rfl (TableRow.subReg x y) rfl rfl,
    encodes_of_tableRow rfl (TableRow.subnReg x y) rfl rfl, ?_, ?_⟩
  · exact resultFlag_sub_writes s x (s.getV x) (s.getV y)
  · exact resultFlag_sub_writes s x (s.getV y) (s.getV x)

/-! ## The shifts -/

theorem flagByte_getLsbD_toNat (v : Byte) (k : Nat) : (flagByte (v.getLsbD k)).toNat = v.toNat / 2 ^ k % 2 := by
  rw [← Nat.toNat_testBit, flagByte_toNat, BitVec.getLsbD]
  cases v.toNat.testBit k <;> rfl

theorem flagByte_lowBit_toNat (v : Byte) : (flagByte (lowBit v)).toNat = v.toNat % 2 := by
  rw [lowBit, flagByte_getLsbD_toNat, Nat.pow_zero, Nat.div_one]

theorem flagByte_highBit_toNat (v : Byte) : (flagByte (highBit v)).toNat = v.toNat / 128 := by
  have hv := v.isLt
  rw [highBit, flagByte_getLsbD_toNat]
  omega

theorem byte_ushiftRight_one_toNat (v : Byte) : (v >>> 1).toNat = v.toNat / 2 := by
  rw [BitVec.toNat_ushiftRight, Nat.shiftRight_one]

theorem byte_shiftLeft_one_toNat (v : Byte) : (v <<< 1).toNat = v.toNat * 2 % 256 := by
  rw [BitVec.toNat_shiftLeft, Nat.shiftLeft_eq]

/-- Settles O28: at the default SHIFT_SOURCE the operand is V[x], and its bit on the side of the shift is the flag. -/
theorem shiftsMoveOneBitIntoVF : Obligations.ShiftsMoveOneBitIntoVF := by
  intro x y s
  refine ⟨encodes_of_tableRow rfl (TableRow.shr x y) rfl rfl, encodes_of_tableRow rfl (TableRow.shl x y) rfl rfl,
    ?_, ?_⟩
  · exact resultFlag_writes (fun b => b.toNat = (s.getV x).toNat / 2) s x
      (byte_ushiftRight_one_toNat _) (flagByte_lowBit_toNat _)
  · exact resultFlag_writes (fun b => b.toNat = (s.getV x).toNat * 2 % 256) s x
      (byte_shiftLeft_one_toNat _) (flagByte_highBit_toNat _)

/-! ## RND -/

/-- Settles O29: the draw's byte masked by NN, so a bit that NN does not have is 0. -/
theorem rndMasksTheDraw : Obligations.RndMasksTheDraw := by
  intro x nn s
  refine ⟨encodes_of_tableRow rfl (TableRow.rnd x nn) rfl rfl, ?_⟩
  obtain ⟨t, ht, hval, hpc, hframe⟩ :=
    result_writes (· = Config.randomByte s.free &&& nn) { s with free := s.free + 1 } x rfl
  have hfree : t.free = s.free + 1 := by cases ht; rfl
  refine ⟨t, ht, hval, hfree, fun k hk => ?_, hpc, hframe⟩
  rw [hval, BitVec.getLsbD_and, hk, Bool.and_false]

end Sys2Proof.Machine
end

section
/-! SUPPORT. Where the two values of DRAW_EDGE agree (42_display R82; D2): a sprite that stays on the grid, pixel by
pixel, row by row. -/

namespace Sys2Proof.Machine

theorem edgePlace_wrap_of_onGrid {px py : Nat} (hx : px < 64) (hy : py < 32) : edgePlace .wrap px py = (px, py) :=
  Prod.ext (Nat.mod_eq_of_lt hx) (Nat.mod_eq_of_lt hy)

theorem drawPixel_wrap_of_onGrid {px py : Nat} (hx : px < 64) (hy : py < 32) (d : Draw) :
    drawPixel .wrap px py d = drawPixel .clip px py d := by
  unfold drawPixel
  rw [edgePlace_wrap_of_onGrid hx hy]
  rfl

theorem drawRow_wrap_of_onGrid {x0 py : Nat} (hx : x0 + 8 ≤ 64) (hy : py < 32) (row : Byte) (d : Draw) :
    drawRow .wrap x0 py row d = drawRow .clip x0 py row d := by
  refine List.foldl_ext _ _ d fun e c hc => ?_
  have hcol : c < 8 := List.mem_range.mp hc
  rw [drawPixel_wrap_of_onGrid (by omega) hy]

theorem drawRows_wrap_of_onGrid {x0 py : Nat} {rows : List Byte} (hx : x0 + 8 ≤ 64) (hy : py + rows.length ≤ 32)
    (d : Draw) : drawRows .wrap x0 py rows d = drawRows .clip x0 py rows d := by
  induction rows generalizing py d with
  | nil => rfl
  | cons row rows ih =>
    rw [List.length_cons] at hy
    rw [drawRows, drawRows, drawRow_wrap_of_onGrid hx (by omega), ih (by omega)]

theorem drawSprite_wrap_of_onGrid {x y : Reg} {rows : List Byte} {s : State} (hx : (s.getV x).toNat + 8 ≤ 64)
    (hy : (s.getV y).toNat + rows.length ≤ 32) : drawSprite .wrap x y rows s = drawSprite .clip x y rows s := by
  unfold drawSprite
  rw [drawRows_wrap_of_onGrid hx hy]

theorem draw_wrap_of_onGrid {x y : Reg} {n : Nibble} {s : State} (hx : (s.getV x).toNat + 8 ≤ 64)
    (hy : (s.getV y).toNat + n.toNat ≤ 32) : draw .wrap x y n s = draw .clip x y n s := by
  unfold draw
  cases h : memRead s s.dataAddr n.toNat with
  | error e => rfl
  | ok rows =>
    have hlen : rows.length = n.toNat := by rw [memRead_eq_ok _ _ _ _ h, Memory.length_readBytes]
    exact congrArg _ (drawSprite_wrap_of_onGrid hx (hlen ▸ hy))

/-- Settles O59: with x = y both values of SHIFT_SOURCE name one register, and a wrapping draw on the grid is the
clipping one of the machine. -/
theorem parametersAgreeWhereUnused : Obligations.ParametersAgreeWhereUnused := by
  constructor
  · intro p x s
    cases p with
    | x | y => exact ⟨rfl, rfl⟩
  · intro x y n s hx hy
    exact draw_wrap_of_onGrid hx hy

end Sys2Proof.Machine
end

section
/-! SUPPORT. CLS and DRW (42_display R81, R82): the frame they share, DRW by whether its sprite is in memory, and what a
draw does to the pixels and to VF, each said once of the state it leaves, `State.drawn`. -/

namespace Sys2Proof.Machine

/-- A write of the registers `xs`, of the display and of pc leaves all else as it was. -/
theorem onlyRegsDisplay_setDisplay {xs : List Reg} {s : State} {v : Vector Byte 16} {pc : Word} {fb : Framebuffer}
    {redraw : Bool} (h : SameRegsBut xs s { s with v := v, pc := pc, fb := fb, redraw := redraw }) :
    OnlyRegsDisplay xs s { s with v := v, pc := pc, fb := fb, redraw := redraw } :=
  ⟨h, rfl, ⟨rfl, rfl⟩, ⟨rfl, rfl⟩, ⟨rfl, rfl⟩, fun _ => rfl⟩

/-- Settles O30: the framebuffer CLS writes has no set pixel. -/
theorem clsClearsTheScreen : Obligations.ClsClearsTheScreen := by
  intro s
  exact ⟨encodes_of_toNat_eq rfl rfl, _, rfl, Framebuffer.pixel_clear, rfl, State.advance_pc_toNat _ 2,
    onlyRegsDisplay_setDisplay fun _ _ => rfl⟩

/-! ## DRW by the place of its sprite (20_memory R41) -/

/-- The state after DRW Vx, Vy, N whose sprite is in memory. -/
def State.drawn (s : State) (x y : Reg) (n : Nibble) : State :=
  drawSprite .clip x y (s.mem.readBytes s.dataAddr n.toNat) s

theorem exec_drw_of_inMemory {x y : Reg} {n : Nibble} {s : State} (h : n.toNat = 0 ∨ s.i.toNat + n.toNat ≤ 0x1000) :
    exec (.drw x y n) s = .next (s.drawn x y n) := by
  change draw .clip x y n s = _
  rw [draw, memRead_ok s s.dataAddr n.toNat h]
  rfl

theorem exec_drw_of_leavesMemory {x y : Reg} {n : Nibble} {s : State} (hn : n.toNat ≠ 0)
    (h : s.i.toNat + n.toNat > 0x1000) :
    exec (.drw x y n) s =
      .next (s.afterFault (.memoryBounds (max s.i.toNat 0x1000) (encode (.drw x y n)) s.pc)) := by
  change draw .clip x y n s = _
  rw [draw, memRead_error s s.dataAddr n.toNat hn h]
  rfl

/-- A DRW that raised no fault found its sprite in memory. -/
theorem exec_drw_eq_next_running {x y : Reg} {n : Nibble} {s t : State} (h : exec (.drw x y n) s = .next t)
    (hrun : Running t) : t = s.drawn x y n := by
  by_cases hin : n.toNat = 0 ∨ s.i.toNat + n.toNat ≤ 0x1000
  · rw [exec_drw_of_inMemory hin] at h
    cases h
    rfl
  · rw [exec_drw_of_leavesMemory (by omega) (by omega)] at h
    cases h
    exact absurd hrun (not_running_afterFault s _)

theorem State.getV_drawn_ne {x y : Reg} {n : Nibble} {s : State} {k : Reg} (hk : k ≠ Reg.vf) :
    (s.drawn x y n).getV k = s.getV k :=
  State.getV_setFlag_ne _ k _ hk

theorem State.drawn_pc_toNat (s : State) (x y : Reg) (n : Nibble) :
    (s.drawn x y n).pc.toNat = (s.pc.toNat + 2) % 65536 :=
  State.advance_pc_toNat _ 2

theorem onlyRegsDisplay_drawn (s : State) (x y : Reg) (n : Nibble) : OnlyRegsDisplay [Reg.vf] s (s.drawn x y n) :=
  onlyRegsDisplay_setDisplay fun _ hk => State.getV_drawn_ne (List.ne_of_not_mem_cons hk)

/-! ## The pixels and VF after a draw -/

/-- The bits of the rows DRW reads are those of `spriteSets`. -/
theorem spriteSets_iff_readBytes (s : State) (x0 y0 n px py : Nat) :
    spriteSets s x0 y0 n px py ↔
      y0 ≤ py ∧ py < y0 + (s.mem.readBytes s.dataAddr n).length ∧ x0 ≤ px ∧ px < x0 + 8 ∧
        ((s.mem.readBytes s.dataAddr n).getD (py - y0) 0).getLsbD (7 - (px - x0)) = true := by
  rw [Memory.length_readBytes]
  constructor
  · rintro ⟨hx, hx', hy, hy', hbit⟩
    rw [Memory.getD_readBytes _ _ _ _ (by omega)]
    exact ⟨hy, hy', hx, hx', hbit⟩
  · rintro ⟨hy, hy', hx, hx', hbit⟩
    rw [Memory.getD_readBytes _ _ _ _ (by omega)] at hbit
    exact ⟨hx, hx', hy, hy', hbit⟩

/-- On the grid a draw is the exclusive or of the pixel and the sprite's bit. -/
theorem State.drawn_pixel (s : State) (x y : Reg) (n : Nibble) {px py : Nat} (hx : px < 64) (hy : py < 32) :
    (s.drawn x y n).fb.pixel px py = true ↔
      ¬(s.fb.pixel px py = true ↔ spriteSets s (s.getV x).toNat (s.getV y).toNat n.toNat px py) := by
  rw [spriteSets_iff_readBytes]
  change (drawRows .clip _ _ _ _).fb.pixel px py = true ↔ _
  rw [drawRows_clip_pixel _ _ _ _ _ _ ⟨hx, hy⟩, bne_iff_ne, ne_eq, Bool.eq_iff_iff, decide_eq_true_iff]

/-- The draw's collision flag tells of a set bit on a set pixel. -/
theorem drawRows_readBytes_collision (s : State) (x0 y0 n : Nat) :
    (drawRows .clip x0 y0 (s.mem.readBytes s.dataAddr n) { fb := s.fb, collision := false }).collision = true ↔
      ∃ px py, px < 64 ∧ py < 32 ∧ s.fb.pixel px py = true ∧ spriteSets s x0 y0 n px py := by
  rw [drawRows_clip_collision, or_iff_right Bool.false_ne_true]
  constructor
  · rintro ⟨k, c, hk, hc, hbit, hx, hy, hset⟩
    refine ⟨x0 + c, y0 + k, hx, hy, hset, (spriteSets_iff_readBytes ..).mpr ?_⟩
    rw [Nat.add_sub_cancel_left, Nat.add_sub_cancel_left]
    exact ⟨by omega, by omega, by omega, by omega, hbit⟩
  · rintro ⟨px, py, hx, hy, hset, hsprite⟩
    obtain ⟨hpy, hpy', hpx, hpx', hbit⟩ := (spriteSets_iff_readBytes ..).mp hsprite
    refine ⟨py - y0, px - x0, by omega, by omega, hbit, by omega, by omega, ?_⟩
    rwa [Nat.add_sub_cancel' hpx, Nat.add_sub_cancel' hpy]

/-- A set pixel that the draw unsets is one under a set bit of the sprite. -/
theorem State.drawn_unsets_iff (s : State) (x y : Reg) (n : Nibble) {px py : Nat} (hx : px < 64) (hy : py < 32)
    (hset : s.fb.pixel px py = true) :
    (s.drawn x y n).fb.pixel px py = false ↔ spriteSets s (s.getV x).toNat (s.getV y).toNat n.toNat px py := by
  rw [← Bool.not_eq_true, s.drawn_pixel x y n hx hy, not_not, iff_true_left hset]

/-- A pixel of the grid goes from set in `s` to unset in `t`. -/
def UnsetsPixel (s t : State) : Prop :=
  ∃ px py, px < 64 ∧ py < 32 ∧ s.fb.pixel px py = true ∧ t.fb.pixel px py = false

theorem drawRows_collision_iff_unsetsPixel (s : State) (x y : Reg) (n : Nibble) :
    (drawRows .clip (s.getV x).toNat (s.getV y).toNat (s.mem.readBytes s.dataAddr n.toNat)
      { fb := s.fb, collision := false }).collision = true ↔ UnsetsPixel s (s.drawn x y n) := by
  rw [drawRows_readBytes_collision]
  refine exists₂_congr fun px py => and_congr_right fun hx => and_congr_right fun hy => and_congr_right fun hset => ?_
  exact (s.drawn_unsets_iff x y n hx hy hset).symm

open Classical in
/-- VF tells a pixel that went from set to unset. -/
theorem State.drawn_vf_toNat (s : State) (x y : Reg) (n : Nibble) :
    ((s.drawn x y n).getV Reg.vf).toNat = if UnsetsPixel s (s.drawn x y n) then 1 else 0 := by
  have hvf : (s.drawn x y n).getV Reg.vf = flagByte _ := State.getV_setFlag_vf _ _
  rw [hvf, flagByte_toNat]
  exact if_congr (drawRows_collision_iff_unsetsPixel s x y n) rfl rfl

theorem State.drawn_vf_eq_one_iff (s : State) (x y : Reg) (n : Nibble) :
    ((s.drawn x y n).getV Reg.vf).toNat = 1 ↔ UnsetsPixel s (s.drawn x y n) := by
  rw [State.drawn_vf_toNat]
  split_ifs with h <;> simp [h]

/-- Settles O31: `State.drawn` while the sprite is in memory, and the fault's entry with the opcode as a number when it
is not. -/
theorem drwXorsTheSprite : Obligations.DrwXorsTheSprite := by
  intro x y n s
  have henc : Encodes (.drw x y n) (0xD000 + x.val * 256 + y.val * 16 + n.toNat) :=
    encodes_of_toNat_eq rfl (wordXYN_toNat 0xD x y n)
  refine ⟨henc, fun hin => ?_, fun hn hout => ?_⟩
  · refine ⟨s.drawn x y n, exec_drw_of_inMemory hin, fun px py hx hy => s.drawn_pixel x y n hx hy,
      (s.drawn_vf_eq_one_iff x y n).mpr, fun hkept => ?_, rfl, s.drawn_pc_toNat x y n, onlyRegsDisplay_drawn s x y n⟩
    refine (s.drawn_vf_toNat x y n).trans (if_neg ?_)
    rintro ⟨px, py, hx, hy, hset, hunset⟩
    exact Bool.false_ne_true (hunset.symm.trans (hkept px py hx hy hset))
  · rw [exec_drw_of_leavesMemory hn hout, encode_eq_ofNat henc.1]

/-! ## Two draws at one place (95_test_vectors L1-5) -/

/-- Where x and y are not F, a second draw has the sprite and the corner of the first. -/
theorem State.drawn_drawn_pixel {x y : Reg} (hxf : x ≠ Reg.vf) (hyf : y ≠ Reg.vf) (n : Nibble) (s : State)
    {px py : Nat} (hx : px < 64) (hy : py < 32) :
    ((s.drawn x y n).drawn x y n).fb.pixel px py = true ↔
      ¬((s.drawn x y n).fb.pixel px py = true ↔
        spriteSets s (s.getV x).toNat (s.getV y).toNat n.toNat px py) := by
  have h := (s.drawn x y n).drawn_pixel x y n hx hy
  rwa [State.getV_drawn_ne hxf, State.getV_drawn_ne hyf] at h

/-- An exclusive or done twice. -/
theorem State.drawn_drawn_fb {x y : Reg} (hxf : x ≠ Reg.vf) (hyf : y ≠ Reg.vf) (n : Nibble) (s : State) :
    ((s.drawn x y n).drawn x y n).fb = s.fb := by
  refine Framebuffer.ext_pixel _ _ fun px py hx hy => ?_
  rw [Bool.eq_iff_iff, s.drawn_drawn_pixel hxf hyf n hx hy, s.drawn_pixel x y n hx hy]
  by_cases hsprite : spriteSets s (s.getV x).toNat (s.getV y).toNat n.toNat px py <;>
    simp [hsprite]

/-- Settles O32: the second draw is the exclusive or undone, so a pixel it unsets is one that the first draw set, and
on a blank area those are the sprite's bits. -/
theorem drawTwiceRestores : Obligations.DrawTwiceRestores := by
  intro x y n s t u hxf hyf ht hu hst htu
  obtain rfl := exec_drw_eq_next_running hst ht
  obtain rfl := exec_drw_eq_next_running htu hu
  have hrestored := s.drawn_drawn_fb hxf hyf n
  refine ⟨hrestored, fun hblank => ?_⟩
  rw [State.drawn_vf_eq_one_iff, UnsetsPixel, hrestored]
  refine exists₂_congr fun px py => and_congr_right fun hx => and_congr_right fun hy => ?_
  rw [s.drawn_pixel x y n hx hy]
  constructor
  · rintro ⟨hxor, hunset⟩
    simpa [hunset] using hxor
  · intro hsprite
    simp [hsprite, hblank px py hsprite]

end Sys2Proof.Machine
end

section
/-! SUPPORT. Keys and timers (43_keys_timers R83 to R88): the key skips by whether V[x] names a key, the key wait by
whether a key is pressed, and the frame of the instructions that set a timer. -/

namespace Sys2Proof.Machine

open Sys2Proof.Laws

/-! ## SKP and SKNP Vx -/

/-- SKNP's skip: not taken while the key is down. -/
theorem State.skipIf_not_pc_toNat (s : State) (b : Bool) :
    (s.skipIf (!b)).pc.toNat = (s.pc.toNat + if b then 2 else 4) % 65536 := by
  cases b <;> exact s.skipIf_pc_toNat _

theorem exec_skp_of_key {x : Reg} {s : State} {k : Fin 16} (hk : k.val = (s.getV x).toNat) :
    exec (.skp x) s = .next (s.skipIf (s.key.get k)) := by
  change execSkp x s = _
  rw [execSkp, s.keyOperand_ok x k hk]
  rfl

theorem exec_sknp_of_key {x : Reg} {s : State} {k : Fin 16} (hk : k.val = (s.getV x).toNat) :
    exec (.sknp x) s = .next (s.skipIf (!s.key.get k)) := by
  change execSknp x s = _
  rw [execSknp, s.keyOperand_ok x k hk]
  rfl

theorem exec_skp_of_noKey {x : Reg} {s : State} (h : (s.getV x).toNat > 0xF) :
    exec (.skp x) s = .next (s.afterFault (.keyIndex (s.getV x) (encode (.skp x)) s.pc)) := by
  change execSkp x s = _
  rw [execSkp, s.keyOperand_error x h]
  rfl

theorem exec_sknp_of_noKey {x : Reg} {s : State} (h : (s.getV x).toNat > 0xF) :
    exec (.sknp x) s = .next (s.afterFault (.keyIndex (s.getV x) (encode (.sknp x)) s.pc)) := by
  change execSknp x s = _
  rw [execSknp, s.keyOperand_error x h]
  rfl

/-- Settles O33: each skip is `State.skipIf` of the key V[x] names, and where it names none the fault's entry holds the
opcode as a number. -/
theorem keySkipsReadTheKey : Obligations.KeySkipsReadTheKey := by
  intro x s
  refine ⟨encodes_of_toNat_eq rfl (TableRow.skp x), encodes_of_toNat_eq rfl (TableRow.sknp x),
    fun k hk => ⟨?_, ?_⟩, fun h => ⟨?_, ?_⟩⟩
  · exact ⟨_, exec_skp_of_key hk, s.skipIf_pc_toNat _, onlyRegs_skipIf s _⟩
  · exact ⟨_, exec_sknp_of_key hk, s.skipIf_not_pc_toNat _, onlyRegs_skipIf s _⟩
  · exact encode_eq_ofNat (TableRow.skp x) ▸ exec_skp_of_noKey h
  · exact encode_eq_ofNat (TableRow.sknp x) ▸ exec_sknp_of_noKey h

/-! ## LD Vx, K -/

theorem exec_ldVxKey_of_lowestKey {s : State} {k : Fin 16} (x : Reg) (h : s.lowestKey = some k) :
    exec (.ldVxKey x) s = result s x (BitVec.ofNat 8 k.val) := by
  change execLdVxKey x s = _
  rw [execLdVxKey, h]
  rfl

theorem exec_ldVxKey_of_noKey {s : State} (x : Reg) (h : s.lowestKey = none) : exec (.ldVxKey x) s = .next s := by
  change execLdVxKey x s = _
  rw [execLdVxKey, h]

/-- Settles O35: `result` of the lowest pressed key, whose number fits a byte, or the stall. -/
theorem keyWaitTakesLowestKeyOrStalls : Obligations.KeyWaitTakesLowestKeyOrStalls := by
  intro x s
  refine ⟨encodes_of_toNat_eq rfl (TableRow.ldVxKey x), fun k hdown hbelow => ?_, fun hnone => ?_⟩
  · rw [exec_ldVxKey_of_lowestKey x ((s.lowestKey_eq_some k).mpr ⟨hdown, hbelow⟩)]
    have hbyte : (BitVec.ofNat 8 k.val).toNat = k.val := Nat.mod_eq_of_lt (by omega)
    exact result_writes (fun b => b.toNat = k.val) s x hbyte
  · exact exec_ldVxKey_of_noKey x (s.lowestKey_eq_none.mpr hnone)

/-! ## The timers -/

/-- Settles O34: `result` of DT, which the rule leaves for the tick to take one from. -/
theorem ldVxDtReadsTheTimer : Obligations.LdVxDtReadsTheTimer := by
  intro x s
  obtain ⟨t, ht, hval, hpc, hframe⟩ := result_writes (· = s.dt) s x rfl
  have hdt : t.dt = s.dt := by cases ht; rfl
  refine ⟨encodes_of_toNat_eq rfl (TableRow.ldVxDt x), t, ht, hval, hpc, hframe, ?_⟩
  rw [State.tick_dt, tickTimer_toNat, hdt]

/-- A write of the timers and of pc leaves all else as it was. -/
theorem onlyTimers_setTimers (s : State) (dt st : Byte) (pc : Word) :
    OnlyTimers s { s with dt := dt, st := st, pc := pc } :=
  ⟨fun _ _ => rfl, rfl, ⟨rfl, rfl⟩, ⟨rfl, rfl⟩, ⟨rfl, rfl⟩, fun _ => rfl⟩

/-- Settles O36: each instruction writes its own timer, and the tick takes one from what it wrote. -/
theorem setTimersFromRegister : Obligations.SetTimersFromRegister := by
  intro x s
  refine ⟨encodes_of_toNat_eq rfl (TableRow.ldDtVx x), encodes_of_toNat_eq rfl (TableRow.ldStVx x), ?_, ?_⟩
  · exact ⟨_, rfl, rfl, rfl, State.advance_pc_toNat _ 2, onlyTimers_setTimers s _ _ _, tickTimer_toNat (s.getV x)⟩
  · exact ⟨_, rfl, rfl, rfl, State.advance_pc_toNat _ 2, onlyTimers_setTimers s _ _ _, tickTimer_toNat (s.getV x)⟩

end Sys2Proof.Machine
end

section
/-! SUPPORT. The index register and memory (44_index_memory R90 to R95): their frame, the checked store that LD B
and LD [I] both are and the register load, each by the place of its block, and a load after a dump. -/

namespace Sys2Proof.Machine

open Sys2Proof.Laws

/-- A write of the registers `xs`, of I, of memory and of pc leaves all else as it was. -/
theorem onlyRegsIndexMemory_setIndexMemory {xs : List Reg} {s : State} {v : Vector Byte 16} {i pc : Word}
    {mem : Memory} (h : SameRegsBut xs s { s with v := v, i := i, pc := pc, mem := mem }) :
    OnlyRegsIndexMemory xs s { s with v := v, i := i, pc := pc, mem := mem } :=
  ⟨h, ⟨rfl, rfl⟩, ⟨rfl, rfl⟩, ⟨rfl, rfl⟩, ⟨rfl, rfl⟩⟩

/-! ## LD I, NNN, ADD I, Vx and LD F, Vx -/

/-- Settles O37: the zero-extended NNN. -/
theorem ldISetsIndex : Obligations.LdISetsIndex := by
  intro nnn s
  exact ⟨encodes_of_toNat_eq rfl (TableRow.ldI nnn), _, rfl, absolute_toNat nnn, State.advance_pc_toNat _ 2,
    fun _ => rfl, onlyRegsIndexMemory_setIndexMemory fun _ _ => rfl⟩

theorem flagByte_indexOverflow_toNat (i : Word) (b : Byte) :
    (flagByte (indexOverflow i b)).toNat = if i.toNat + b.toNat > 0xFFF then 1 else 0 := by
  simp only [flagByte_toNat, indexOverflow, decide_eq_true_eq]

/-- Settles O38: I and V[x] are read before VF is written, so x = F is no special case. -/
theorem addIFlagsAbove0xFFF : Obligations.AddIFlagsAbove0xFFF := by
  intro x s
  refine ⟨encodes_of_toNat_eq rfl (TableRow.addI x), _, rfl, State.addToI_i_toNat s _, ?_,
    State.advance_pc_toNat _ 2, fun _ => rfl, onlyRegsIndexMemory_setIndexMemory fun k hk => ?_⟩
  · rw [State.getV_advance, State.getV_setFlag_vf, flagByte_indexOverflow_toNat]
  · exact State.getV_setFlag_ne _ k _ (List.ne_of_not_mem_cons hk)

/-- Settles O39: the address of the glyph of V[x]'s low nibble. -/
theorem ldFontPointsAtGlyph : Obligations.LdFontPointsAtGlyph := by
  intro x s
  exact ⟨encodes_of_toNat_eq rfl (TableRow.ldFont x), _, rfl, glyphAddr_toNat (s.getV x), State.advance_pc_toNat _ 2,
    fun _ => rfl, onlyRegsIndexMemory_setIndexMemory fun _ _ => rfl⟩

/-! ## A block stored at I (20_memory R40, R41) -/

/-- The state with the bytes stored from I up. -/
def State.stored (s : State) (bs : List Byte) : State := { s with mem := s.mem.writeBytes s.dataAddr bs }

theorem State.read_stored {s : State} {bs : List Byte} {k : Nat} (hk : k < bs.length) :
    (s.stored bs).mem.read (s.dataAddr + k) = bs.getD k 0 := by
  have hin : s.dataAddr ≤ s.dataAddr + k ∧ s.dataAddr + k < s.dataAddr + bs.length := by omega
  rw [State.stored, Memory.read_writeBytes, if_pos hin, Nat.add_sub_cancel_left]

theorem State.sameMemoryOutside_stored (s : State) {bs : List Byte} {n : Nat} (hlen : bs.length = n) :
    SameMemoryOutside s.dataAddr n s (s.stored bs) :=
  fun _ ha => Memory.read_writeBytes_outside (hlen ▸ ha)

/-- LD B and LD [I] alike: the instruction `i` stores `bs` from I up, every address checked first, and then does
`after`. -/
def storeBlock (i : Instr) (bs : List Byte) (after : State → State) (s : State) :
    Host.Outcome State Fault Refusal :=
  match memWrite .fault s s.dataAddr bs with
  | .error e => raise s (e.record (encode i) s.pc)
  | .ok t => .next (after t)

theorem exec_ldBcd_eq_storeBlock (x : Reg) (s : State) :
    exec (.ldBcd x) s = storeBlock (.ldBcd x) (bcdDigits (s.getV x)) (·.advance 2) s := rfl

theorem exec_storeRegs_eq_storeBlock (x : Reg) (s : State) :
    exec (.storeRegs x) s =
      storeBlock (.storeRegs x) (s.dumpRegs x) (fun t => (t.addToI (x.val + 1)).advance 2) s := rfl

section

variable {i : Instr} {w n : Nat} {bs : List Byte} {after : State → State} {s : State}

/-- A block above the reserved range and in memory, where I + n is the address of its last byte. -/
theorem storeBlock_of_inMemory (hlen : bs.length = n + 1) (lo : 0x1FF < s.i.toNat) (hi : s.i.toNat + n ≤ 0xFFF) :
    storeBlock i bs after s = .next (after (s.stored bs)) := by
  have hblock : 0x1FF < s.dataAddr ∧ s.dataAddr + bs.length ≤ 0x1000 := by
    unfold State.dataAddr; omega
  rw [storeBlock, memWrite_ok s s.dataAddr bs (.inr hblock)]
  rfl

theorem storeBlock_of_reserved (henc : Encodes i w) (hlen : bs.length = n + 1) (h : s.i.toNat ≤ 0x1FF) :
    storeBlock i bs after s =
      .next (s.afterFault (.reservedWrite s.i.toNat (BitVec.ofNat 16 w) s.pc)) := by
  rw [storeBlock, memWrite_reserved s s.dataAddr bs (List.ne_nil_of_length_eq_add_one hlen) h,
    encode_eq_ofNat henc.1]
  rfl

/-- A block of at most sixteen bytes that leaves memory does not start in the reserved range, so the bounds fault is the
first. -/
theorem storeBlock_of_leavesMemory (henc : Encodes i w) (hlen : bs.length = n + 1) (hn : n ≤ 15)
    (h : s.i.toNat + n > 0xFFF) :
    storeBlock i bs after s =
      .next (s.afterFault (.memoryBounds (max s.i.toNat 0x1000) (BitVec.ofNat 16 w) s.pc)) := by
  have lo : 0x1FF < s.dataAddr := by unfold State.dataAddr; omega
  have hout : s.dataAddr + bs.length > 0x1000 := by unfold State.dataAddr; omega
  rw [storeBlock, memWrite_bounds s s.dataAddr bs lo (List.ne_nil_of_length_eq_add_one hlen) hout,
    encode_eq_ofNat henc.1]
  rfl

end

/-! ## LD B, Vx -/

theorem getD_bcdDigits_toNat (b : Byte) :
    ((bcdDigits b).getD 0 0).toNat = b.toNat / 100 ∧ ((bcdDigits b).getD 1 0).toNat = b.toNat / 10 % 10 ∧
      ((bcdDigits b).getD 2 0).toNat = b.toNat % 10 := by
  have hb := b.isLt
  simp only [bcdDigits, List.getD_cons_zero, List.getD_cons_succ, BitVec.toNat_ofNat]
  omega

/-- The digits of `b` stored from I up, read back at I, I + 1 and I + 2. -/
theorem State.read_stored_bcdDigits_toNat (s : State) (b : Byte) :
    ((s.stored (bcdDigits b)).mem.read s.i.toNat).toNat = b.toNat / 100 ∧
      ((s.stored (bcdDigits b)).mem.read (s.i.toNat + 1)).toNat = b.toNat / 10 % 10 ∧
      ((s.stored (bcdDigits b)).mem.read (s.i.toNat + 2)).toNat = b.toNat % 10 := by
  obtain ⟨hundreds, tens, ones⟩ := getD_bcdDigits_toNat b
  have hread (k : Nat) (hk : k < 3) :
      ((s.stored (bcdDigits b)).mem.read (s.i.toNat + k)).toNat = ((bcdDigits b).getD k 0).toNat :=
    congrArg BitVec.toNat (State.read_stored hk)
  exact ⟨(hread 0 (by decide)).trans hundreds, (hread 1 (by decide)).trans tens, (hread 2 (by decide)).trans ones⟩

/-- Settles O40: `storeBlock` of the three digits, which are read back at I, I + 1 and I + 2. -/
theorem ldBcdStoresDigits : Obligations.LdBcdStoresDigits := by
  intro x s
  rw [exec_ldBcd_eq_storeBlock]
  have henc : Encodes (.ldBcd x) (0xF033 + x.val * 256) := encodes_of_toNat_eq rfl (TableRow.ldBcd x)
  have hlen : (bcdDigits (s.getV x)).length = 2 + 1 := length_bcdDigits _
  refine ⟨henc, fun lo hi => ⟨_, storeBlock_of_inMemory hlen lo hi, ?_⟩, storeBlock_of_reserved henc hlen,
    storeBlock_of_leavesMemory henc hlen (by decide)⟩
  obtain ⟨hundreds, tens, ones⟩ := s.read_stored_bcdDigits_toNat (s.getV x)
  simp only [State.advance_mem, hundreds, tens, ones]
  exact ⟨by omega, by omega, by omega, s.sameMemoryOutside_stored hlen, rfl, State.advance_pc_toNat _ 2,
    onlyRegsIndexMemory_setIndexMemory fun _ _ => rfl⟩

/-! ## LD [I], Vx -/

/-- Settles O41: `storeBlock` of the register dump, which is read back byte by byte. -/
theorem storeRegsDumpsRegisters : Obligations.StoreRegsDumpsRegisters := by
  intro x s
  rw [exec_storeRegs_eq_storeBlock]
  have henc : Encodes (.storeRegs x) (0xF055 + x.val * 256) := encodes_of_toNat_eq rfl (TableRow.storeRegs x)
  have hlen : (s.dumpRegs x).length = x.val + 1 := s.length_dumpRegs x
  refine ⟨henc, fun lo hi => ⟨_, storeBlock_of_inMemory hlen lo hi, fun k hk => ?_,
    s.sameMemoryOutside_stored hlen, State.addToI_i_toNat _ _, State.advance_pc_toNat _ 2,
    onlyRegsIndexMemory_setIndexMemory fun _ _ => rfl⟩,
    storeBlock_of_reserved henc hlen, storeBlock_of_leavesMemory henc hlen x.is_le⟩
  exact (State.read_stored (hlen ▸ Nat.lt_succ_of_le hk)).trans (s.getD_dumpRegs x k hk)

/-! ## LD Vx, [I] -/

/-- The state after LD Vx, [I] whose block is in memory. -/
def State.loaded (s : State) (x : Reg) : State :=
  ((s.fillRegs x (s.mem.readBytes s.dataAddr (x.val + 1))).addToI (x.val + 1)).advance 2

theorem exec_loadRegs_of_inMemory {x : Reg} {s : State} (h : s.i.toNat + x.val ≤ 0xFFF) :
    exec (.loadRegs x) s = .next (s.loaded x) := by
  have hblock : s.dataAddr + (x.val + 1) ≤ 0x1000 := by unfold State.dataAddr; omega
  change execLoadRegs x s = _
  rw [execLoadRegs, memRead_ok s s.dataAddr (x.val + 1) (.inr hblock)]
  rfl

theorem exec_loadRegs_of_leavesMemory {x : Reg} {s : State} (h : s.i.toNat + x.val > 0xFFF) :
    exec (.loadRegs x) s =
      .next (s.afterFault (.memoryBounds (max s.i.toNat 0x1000) (encode (.loadRegs x)) s.pc)) := by
  have hout : s.dataAddr + (x.val + 1) > 0x1000 := by unfold State.dataAddr; omega
  change execLoadRegs x s = _
  rw [execLoadRegs, memRead_error s s.dataAddr (x.val + 1) (Nat.succ_ne_zero _) hout]
  rfl

theorem State.getV_loaded {s : State} {x k : Reg} (hk : k ≤ x) :
    (s.loaded x).getV k = s.mem.read (s.dataAddr + k.val) := by
  have hle : k.val ≤ x.val := hk
  rw [State.loaded, State.getV_advance, State.getV_addToI, State.getV_fillRegs, if_pos hle,
    Memory.getD_readBytes _ _ _ _ (Nat.lt_succ_of_le hle)]

theorem State.loaded_mem (s : State) (x : Reg) : (s.loaded x).mem = s.mem := by
  simp [State.loaded]

theorem State.loaded_i_toNat (s : State) (x : Reg) :
    (s.loaded x).i.toNat = (s.i.toNat + x.val + 1) % 65536 := by
  rw [State.loaded, State.advance_i, State.addToI_i_toNat, State.fillRegs_i, Nat.add_assoc]

theorem State.loaded_pc_toNat (s : State) (x : Reg) : (s.loaded x).pc.toNat = (s.pc.toNat + 2) % 65536 := by
  rw [State.loaded, State.advance_pc_toNat, State.addToI_pc, State.fillRegs_pc]

theorem onlyRegsIndexMemory_loaded (s : State) (x : Reg) :
    OnlyRegsIndexMemory (writtenRegs (.loadRegs x)) s (s.loaded x) := by
  refine ⟨(Completes.loadRegs x).sameRegsBut, ?_⟩
  simp [State.loaded, SameStack, SameTimers, SameDisplay, SameKeysHalt]

/-- Settles O42: `State.loaded` where the block is in memory, and the fault's entry with the opcode as a number where it
is not. -/
theorem loadRegsFillsRegisters : Obligations.LoadRegsFillsRegisters := by
  intro x s
  have henc : Encodes (.loadRegs x) (0xF065 + x.val * 256) := encodes_of_toNat_eq rfl (TableRow.loadRegs x)
  refine ⟨henc, fun hin => ?_, fun hout => ?_⟩
  · exact ⟨s.loaded x, exec_loadRegs_of_inMemory hin, fun _ hk => State.getV_loaded hk, s.loaded_i_toNat x,
      s.loaded_pc_toNat x, fun a => by rw [s.loaded_mem x], onlyRegsIndexMemory_loaded s x⟩
  · rw [exec_loadRegs_of_leavesMemory hout, encode_eq_ofNat henc.1]

/-! ## A register load after a register dump -/

/-- Settles O43: the dump raised no fault, so its block is in memory, where the load reads the registers back; both move
I on alike. -/
theorem loadUndoesStore : Obligations.LoadUndoesStore := by
  intro x s t u hrun hst hmem hi
  have haddr : u.dataAddr = s.dataAddr := congrArg BitVec.toNat hi
  obtain ⟨-, hbound, ht⟩ := exec_storeRegs_eq_next_running hst hrun
  have hin : u.i.toNat + x.val ≤ 0xFFF := by
    rw [hi]; unfold State.dataAddr at hbound; omega
  refine ⟨u.loaded x, exec_loadRegs_of_inMemory hin, fun k hk => ?_, BitVec.eq_of_toNat_eq ?_⟩
  · calc (u.loaded x).getV k
        = t.mem.read (s.dataAddr + k.val) := by rw [State.getV_loaded hk, hmem, haddr]
      _ = s.getV k := read_of_exec_storeRegs hst hrun hk
  · rw [State.loaded_i_toNat, hi, ht, State.advance_i, State.addToI_i_toNat, Nat.add_assoc]

end Sys2Proof.Machine
end

section
/-! SUPPORT. Faults of a step (60_exceptions R96 to R105): a halted core, the state a fault leaves and what its record
holds, and the opcodes with no defined instruction. -/

namespace Sys2Proof.Machine

/-- Settles O9: the step looks at HALTED first. -/
theorem haltedCoreHasNoStep : Obligations.HaltedCoreHasNoStep := by
  intro s r hr
  simp only [step, cycle, hr]

/-! ## Fault entry and the record -/

/-- The record in HALTED is the one whose entry the state is. -/
theorem State.afterFault_eq_of_halted {s : State} {r r' : FaultRecord} (h : (s.afterFault r).halted = some r') :
    r = r' :=
  Option.some.inj h

/-- Settles O11: a step that leaves the core halted ends in the entry of a fault, whose record HALTED holds. -/
theorem faultEntryIsHalt : Obligations.FaultEntryIsHalt := by
  intro s t r hstep hr
  rcases step_running_or_afterFault hstep with hrun | ⟨r', rfl⟩
  · cases hrun.symm.trans hr
  · rw [State.afterFault_eq_of_halted hr]

/-- A rule that halts a running core ends in a fault, with the instruction's own opcode, pc and codes (60_exceptions
R97, R104). -/
theorem RuleEnds.record_of_halted {i : Instr} {s t : State} {r : FaultRecord} (hrun : Running s)
    (h : RuleEnds i s t) (hr : t.halted = some r) :
    r.opOf = some (encode i) ∧ r.pcOf = s.pc ∧ r.code ∈ faultCodes i := by
  cases h with
  | completes _ halted => cases (halted.trans hrun).symm.trans hr
  | faults r' op pc code =>
    obtain rfl := State.afterFault_eq_of_halted hr
    exact ⟨op, pc, code⟩

theorem ruleEnds_of_exec {i : Instr} {s t : State} (h : exec i s = .next t) : RuleEnds i s t := by
  obtain ⟨u, hu, hends⟩ := exec_endsByRule i s
  obtain rfl : u = t := Host.Outcome.next.inj (hu.symm.trans h)
  exact hends

/-- The tick after a rule leaves HALTED alone. -/
theorem halted_tick_unless_halted (u : State) : (if u.halted.isSome then u else u.tick).halted = u.halted := by
  split_ifs <;> rfl

/-- Settles O12: the failed fetch has no opcode, the refused opcode is the fetched one, and the opcode that an
instruction's fault records, its encoding, is the one it was decoded from. -/
theorem faultRecordIsPrecise : Obligations.FaultRecordIsPrecise := by
  intro s t r hstep hr
  obtain ⟨hrun, ⟨hf, rfl⟩ | ⟨op, hf, ⟨e, -, rfl⟩ | ⟨i, u, hd, hx, rfl⟩⟩⟩ := step_cases s t hstep
  · obtain rfl := State.afterFault_eq_of_halted hr
    exact ⟨rfl, hf.symm⟩
  · obtain rfl := State.afterFault_eq_of_halted hr
    exact ⟨rfl, hf.symm⟩
  · rw [halted_tick_unless_halted] at hr
    obtain ⟨hop, hpc, -⟩ := (ruleEnds_of_exec hx).record_of_halted hrun hr
    exact ⟨hpc, by rw [hop, encode_of_decode hd, hf]⟩

/-- Settles O13: of the two ways a rule ends, only the fault halts a running core, and its code is one of R104's. -/
theorem faultsOfEachInstruction : Obligations.FaultsOfEachInstruction := by
  intro i s t r hrun hx hr
  obtain ⟨-, -, hcode⟩ := (ruleEnds_of_exec hx).record_of_halted hrun hr
  exact hcode

/-! ## Opcodes with no defined instruction -/

theorem step_of_decode_error {s : State} {op : Word} {e : DecodeError} (hrun : Running s) (hf : s.fetch = some op)
    (hd : decode op = .error e) : step s = .next (s.afterFault (.unknownOpcode op s.pc)) := by
  rw [step_of_fetch hrun hf, runOpcode, hd]
  rfl

/-- Settles O8: a refused opcode faults in the decoder, and SYS by its rule, with its encoding, which is the fetched
opcode. -/
theorem undefinedOpcodeRaisesUnknownOpcode : Obligations.UndefinedOpcodeRaisesUnknownOpcode := by
  rintro s op hrun hf (⟨e, hd⟩ | ⟨nnn, hd⟩)
  · exact step_of_decode_error hrun hf hd
  · have hx : exec (.sys nnn) s = .next (s.afterFault (.unknownOpcode op s.pc)) := by
      rw [← encode_of_decode hd]
      rfl
    exact step_of_decode s _ op (.sys nnn) hrun hf hd hx

end Sys2Proof.Machine
end

section
/-! SUPPORT. The two key skips as one (43_keys_timers R83, R84). -/

namespace Sys2Proof.Machine

/-- SKP and SKNP alike: the instruction `i` skips by what `taken` makes of the key that V[x] names. -/
def skipOnKey (i : Instr) (x : Reg) (taken : Bool → Bool) (s : State) : Host.Outcome State Fault Refusal :=
  match s.keyOperand x with
  | .error value => raise s (.keyIndex value (encode i) s.pc)
  | .ok k => .next (s.skipIf (taken (s.keyDown k)))

theorem exec_skp_eq_skipOnKey (x : Reg) (s : State) : exec (.skp x) s = skipOnKey (.skp x) x id s := rfl

theorem exec_sknp_eq_skipOnKey (x : Reg) (s : State) : exec (.sknp x) s = skipOnKey (.sknp x) x not s := rfl

end Sys2Proof.Machine
end

section
/-! SUPPORT. DT and ST over one step (60_exceptions R110): no instruction but FX15 writes DT and none but FX18 writes
ST (10_state R24), so the tick is all that moves them. -/

namespace Sys2Proof.Machine

/-- Where the outcome is a running state, DT and ST in it are as before. -/
def TimersKeptOrFaults (s : State) (o : Host.Outcome State Fault Refusal) : Prop :=
  ∀ t, o = .next t → Running t → SameTimers s t

theorem TimersKeptOrFaults.keeps {s t : State} (h : SameTimers s t) : TimersKeptOrFaults s (.next t) := by
  rintro _ ⟨⟩ -
  exact h

theorem TimersKeptOrFaults.faults (s : State) (r : FaultRecord) : TimersKeptOrFaults s (raise s r) := by
  rintro _ ⟨⟩ hrun
  exact absurd hrun (not_running_afterFault s r)

/-! ## The instructions with more than one outcome -/

theorem execRet_keepsTimers (s : State) : TimersKeptOrFaults s (execRet s) := by
  unfold execRet
  cases h : s.pop with
  | none => exact .faults s _
  | some p =>
    obtain ⟨a, t⟩ := p
    obtain ⟨k, -, -, rfl⟩ := State.pop_eq_some s t a h
    exact .keeps ⟨rfl, rfl⟩

theorem execCall_keepsTimers (nnn : Addr12) (s : State) : TimersKeptOrFaults s (execCall nnn s) := by
  unfold execCall
  cases h : s.push s.pc with
  | none => exact .faults s _
  | some t =>
    obtain ⟨hsp, rfl⟩ := State.push_eq_some s t s.pc h
    exact .keeps ⟨rfl, rfl⟩

theorem draw_keepsTimers (edge : DrawEdge) (x y : Reg) (n : Nibble) (s : State) :
    TimersKeptOrFaults s (draw edge x y n s) := by
  unfold draw
  cases memRead s s.dataAddr n.toNat with
  | error e => exact .faults s _
  | ok rows => exact .keeps ⟨rfl, rfl⟩

theorem skipOnKey_keepsTimers (i : Instr) (x : Reg) (taken : Bool → Bool) (s : State) :
    TimersKeptOrFaults s (skipOnKey i x taken s) := by
  unfold skipOnKey
  cases s.keyOperand x with
  | error value => exact .faults s _
  | ok k => exact .keeps ⟨rfl, rfl⟩

theorem execLdVxKey_keepsTimers (x : Reg) (s : State) : TimersKeptOrFaults s (execLdVxKey x s) := by
  unfold execLdVxKey
  cases s.lowestKey with
  | none => exact .keeps ⟨rfl, rfl⟩
  | some k => exact .keeps ⟨rfl, rfl⟩

/-- LD B and LD [I] alike: what follows the store keeps the timers. -/
theorem storeBlock_keepsTimers {i : Instr} {bs : List Byte} {after : State → State} {s : State}
    (hafter : ∀ t, SameTimers t (after t)) : TimersKeptOrFaults s (storeBlock i bs after s) := by
  unfold storeBlock
  cases h : memWrite .fault s s.dataAddr bs with
  | error e => exact .faults s _
  | ok t =>
    obtain ⟨rfl, -⟩ := memWrite_eq_ok .fault s t s.dataAddr bs h
    exact .keeps (hafter _)

theorem execLoadRegs_keepsTimers (x : Reg) (s : State) : TimersKeptOrFaults s (execLoadRegs x s) := by
  unfold execLoadRegs
  cases memRead s s.dataAddr (x.val + 1) with
  | error e => exact .faults s _
  | ok bytes => exact .keeps (by simp [SameTimers])

/-! ## All instructions, and the step -/

theorem exec_keepsTimers {i : Instr} (s : State) (hdt : ∀ x, i ≠ .ldDtVx x) (hst : ∀ x, i ≠ .ldStVx x) :
    TimersKeptOrFaults s (exec i s) := by
  cases i with
  | ldDtVx x => exact absurd rfl (hdt x)
  | ldStVx x => exact absurd rfl (hst x)
  | sys => exact .faults s _
  | ret => exact execRet_keepsTimers s
  | call nnn => exact execCall_keepsTimers nnn s
  | drw x y n => exact draw_keepsTimers _ x y n s
  | skp x =>
    rw [exec_skp_eq_skipOnKey]
    exact skipOnKey_keepsTimers _ x id s
  | sknp x =>
    rw [exec_sknp_eq_skipOnKey]
    exact skipOnKey_keepsTimers _ x not s
  | ldVxKey x => exact execLdVxKey_keepsTimers x s
  | ldBcd x =>
    rw [exec_ldBcd_eq_storeBlock]
    exact storeBlock_keepsTimers fun _ => ⟨rfl, rfl⟩
  | storeRegs x =>
    rw [exec_storeRegs_eq_storeBlock]
    exact storeBlock_keepsTimers fun _ => ⟨rfl, rfl⟩
  | loadRegs x => exact execLoadRegs_keepsTimers x s
  | _ => exact .keeps ⟨rfl, rfl⟩

/-- An instruction that raises no fault leaves DT unless it is FX15, and ST unless it is FX18. -/
theorem exec_keepsOtherTimer {i : Instr} {s t : State} (hx : exec i s = .next t) (hrun : Running t) :
    ((∀ x, i ≠ .ldDtVx x) → t.dt = s.dt) ∧ ((∀ x, i ≠ .ldStVx x) → t.st = s.st) := by
  by_cases hdt : ∃ x, i = .ldDtVx x
  · obtain ⟨x, rfl⟩ := hdt
    cases hx
    exact ⟨fun h => absurd rfl (h x), fun _ => rfl⟩
  by_cases hst : ∃ x, i = .ldStVx x
  · obtain ⟨x, rfl⟩ := hst
    cases hx
    exact ⟨fun _ => rfl, fun h => absurd rfl (h x)⟩
  obtain ⟨hsameDt, hsameSt⟩ := exec_keepsTimers s (not_exists.mp hdt) (not_exists.mp hst) t hx hrun
  exact ⟨fun _ => hsameDt, fun _ => hsameSt⟩

/-- A step that leaves the core running executed the fetched instruction without a fault and then ticked. -/
theorem step_eq_next_running_exec {s t : State} {op : Word} {i : Instr} (hf : s.fetch = some op)
    (hd : decode op = .ok i) (h : step s = .next t) (hrun : Running t) :
    ∃ u, exec i s = .next u ∧ Running u ∧ t = u.tick := by
  obtain ⟨u, hx⟩ := exec_eq_next i s
  obtain ⟨hs, -⟩ := step_cases s t h
  obtain rfl : (if u.halted.isSome then u else u.tick) = t :=
    Host.Outcome.next.inj ((step_of_decode s u op i hs hf hd hx).symm.trans h)
  have hu : Running u := (halted_tick_unless_halted u).symm.trans hrun
  exact ⟨u, hx, hu, if_neg (by simp [hu])⟩

/-- Settles O14: the tick by its own equations; over a step the instruction leaves the timer as it was and the tick
takes one from it. -/
theorem timersTickOncePerStep : Obligations.TimersTickOncePerStep := by
  refine ⟨fun s => ⟨tickTimer_toNat s.dt, tickTimer_toNat s.st, rfl, onlyTimers_setTimers s _ _ s.pc⟩, ?_⟩
  intro s t op i hf hd hstep hrun
  obtain ⟨u, hx, hu, rfl⟩ := step_eq_next_running_exec hf hd hstep hrun
  obtain ⟨hdt, hst⟩ := exec_keepsOtherTimer hx hu
  refine ⟨fun hi => ?_, fun hi => ?_⟩
  · rw [State.tick_dt, tickTimer_toNat, hdt hi]
  · rw [State.tick_st, tickTimer_toNat, hst hi]

end Sys2Proof.Machine
end

section
/-! SUPPORT. REDRAW is read by no instruction (10_state R27, R31): two states that differ in REDRAW alone step alike, up
to REDRAW, and the free values are the same, since the counter is. -/

namespace Sys2Proof.Machine

/-- Both outcomes are next states, and they differ in REDRAW at most. -/
def AgreeButRedraw (o o' : Host.Outcome State Fault Refusal) : Prop :=
  ∃ t c, o = .next t ∧ o' = .next (t.setRedraw c)

theorem AgreeButRedraw.same (t : State) : AgreeButRedraw (.next t) (.next t) :=
  ⟨t, t.redraw, rfl, rfl⟩

theorem AgreeButRedraw.differ (t : State) (c : Bool) : AgreeButRedraw (.next t) (.next (t.setRedraw c)) :=
  ⟨t, c, rfl, rfl⟩

/-! ## The instructions with more than one outcome -/

theorem execRet_setRedraw (s : State) (b : Bool) : AgreeButRedraw (execRet s) (execRet (s.setRedraw b)) := by
  unfold execRet
  rw [State.pop_setRedraw]
  cases s.pop with
  | none => exact .same _
  | some p => exact .differ _ b

theorem execCall_setRedraw (nnn : Addr12) (s : State) (b : Bool) :
    AgreeButRedraw (execCall nnn s) (execCall nnn (s.setRedraw b)) := by
  unfold execCall
  rw [State.push_setRedraw, State.setRedraw_pc]
  cases s.push s.pc with
  | none => exact .same _
  | some t => exact .differ _ b

/-- A sprite sets REDRAW, whatever it was. -/
theorem draw_setRedraw (edge : DrawEdge) (x y : Reg) (n : Nibble) (s : State) (b : Bool) :
    AgreeButRedraw (draw edge x y n s) (draw edge x y n (s.setRedraw b)) := by
  unfold draw
  rw [memRead_setRedraw, State.setRedraw_dataAddr]
  cases memRead s s.dataAddr n.toNat with
  | error e => exact .same _
  | ok rows => exact .same _

theorem skipOnKey_setRedraw (i : Instr) (x : Reg) (taken : Bool → Bool) (s : State) (b : Bool) :
    AgreeButRedraw (skipOnKey i x taken s) (skipOnKey i x taken (s.setRedraw b)) := by
  unfold skipOnKey
  rw [State.setRedraw_keyOperand]
  cases s.keyOperand x with
  | error value => exact .same _
  | ok k => exact .differ _ b

theorem execLdVxKey_setRedraw (x : Reg) (s : State) (b : Bool) :
    AgreeButRedraw (execLdVxKey x s) (execLdVxKey x (s.setRedraw b)) := by
  unfold execLdVxKey
  rw [State.setRedraw_lowestKey]
  cases s.lowestKey with
  | none => exact .differ _ b
  | some k => exact .differ _ b

/-- LD B and LD [I] alike: what follows the store commutes with a write of REDRAW. -/
theorem storeBlock_setRedraw {i : Instr} {bs : List Byte} {after : State → State} {s : State} {b : Bool}
    (hafter : ∀ t, after (t.setRedraw b) = (after t).setRedraw b) :
    AgreeButRedraw (storeBlock i bs after s) (storeBlock i bs after (s.setRedraw b)) := by
  unfold storeBlock
  rw [memWrite_setRedraw, State.setRedraw_dataAddr]
  cases memWrite .fault s s.dataAddr bs with
  | error e => exact .same _
  | ok t => exact ⟨after t, b, rfl, congrArg _ (hafter t)⟩

theorem execLoadRegs_setRedraw (x : Reg) (s : State) (b : Bool) :
    AgreeButRedraw (execLoadRegs x s) (execLoadRegs x (s.setRedraw b)) := by
  unfold execLoadRegs
  rw [memRead_setRedraw, State.setRedraw_dataAddr]
  cases memRead s s.dataAddr (x.val + 1) with
  | error e => exact .same _
  | ok bytes =>
    simp only [State.setRedraw_fillRegs, State.setRedraw_addToI, State.setRedraw_advance]
    exact .differ _ b

/-! ## All instructions, and the step -/

theorem exec_setRedraw (i : Instr) (s : State) (b : Bool) :
    AgreeButRedraw (exec i s) (exec i (s.setRedraw b)) := by
  cases i with
  | sys => exact .same _
  | cls => exact .same _
  | ret => exact execRet_setRedraw s b
  | call nnn => exact execCall_setRedraw nnn s b
  | drw x y n => exact draw_setRedraw _ x y n s b
  | skp x =>
    rw [exec_skp_eq_skipOnKey, exec_skp_eq_skipOnKey]
    exact skipOnKey_setRedraw _ x id s b
  | sknp x =>
    rw [exec_sknp_eq_skipOnKey, exec_sknp_eq_skipOnKey]
    exact skipOnKey_setRedraw _ x not s b
  | ldVxKey x => exact execLdVxKey_setRedraw x s b
  | ldBcd x =>
    rw [exec_ldBcd_eq_storeBlock, exec_ldBcd_eq_storeBlock]
    exact storeBlock_setRedraw fun _ => rfl
  | storeRegs x =>
    rw [exec_storeRegs_eq_storeBlock, exec_storeRegs_eq_storeBlock]
    exact storeBlock_setRedraw fun _ => rfl
  | loadRegs x => exact execLoadRegs_setRedraw x s b
  | _ => exact .differ _ b

theorem stalls_setRedraw (i : Instr) (s : State) (b : Bool) : stalls i (s.setRedraw b) = stalls i s := by
  cases i <;> rfl

theorem finish_setRedraw (tickDuringWait : Bool) (i : Instr) (s t : State) (b c : Bool) :
    finish tickDuringWait i (s.setRedraw b) (t.setRedraw c) = (finish tickDuringWait i s t).setRedraw c := by
  simp only [finish, State.setRedraw_halted, stalls_setRedraw]
  split_ifs <;> rfl

theorem runOpcode_setRedraw (op : Word) (s : State) (b : Bool) :
    AgreeButRedraw (runOpcode op s) (runOpcode op (s.setRedraw b)) := by
  unfold runOpcode
  cases decode op with
  | error e => exact .same _
  | ok i =>
    obtain ⟨t, c, ht, ht'⟩ := exec_setRedraw i s b
    simp only [ht, ht', finishOutcome, finish_setRedraw]
    exact .differ _ c

theorem step_setRedraw {s : State} (hrun : Running s) (b : Bool) :
    AgreeButRedraw (step s) (step (s.setRedraw b)) := by
  have hrun' : Running (s.setRedraw b) := hrun
  cases hf : s.fetch with
  | none =>
    rw [step_of_fetch_none hrun hf, step_of_fetch_none hrun' hf]
    exact .same _
  | some op =>
    rw [step_of_fetch hrun hf, step_of_fetch hrun' hf]
    exact runOpcode_setRedraw op s b

end Sys2Proof.Machine
end

section
/-! SUPPORT. The host's operations (60_exceptions R112 to R117): that they keep the invariants, what its reads and
writes do, and that it observes its surfaces alone. -/

namespace Sys2Proof.Machine

/-! ## The invariants -/

/-- The three invariants that held of `s` hold of `t`. -/
def KeepsInvariants (s t : State) : Prop :=
  (MemoryCanonical s → MemoryCanonical t) ∧ (ReservedIntact s → ReservedIntact t) ∧
    (ReturnsBounded s → ReturnsBounded t)

/-- A loaded image fits between 0x200 and the end of memory, and the load changes memory alone. -/
theorem hostLoad_eq_loaded {bytes : List Byte} {s t : State} (h : hostLoad bytes s = .loaded t) :
    bytes.length ≤ 3584 ∧ t = { s with mem := s.mem.writeBytes 0x200 bytes } := by
  rcases Nat.lt_or_ge 3584 bytes.length with hlarge | hfits
  · rw [hostLoad_too_large bytes s hlarge] at h
    cases h
  · rw [hostLoad_fits bytes s hfits] at h
    cases h
    exact ⟨hfits, rfl⟩

/-- After reset the invariants hold, whatever held before: no cell is listed, pc is 0x200 and the call stack empty. -/
theorem hostReset_keepsInvariants (s : State) : KeepsInvariants s (hostReset s) :=
  ⟨fun _ => Memory.wf_nil, fun _ _ _ _ => rfl,
    fun _ _ => ⟨show 0x200 ≤ 0x10FE by decide, fun k hk => absurd hk (Nat.not_lt_zero k.val)⟩⟩

theorem hostLoad_keepsInvariants {bytes : List Byte} {s t : State} (h : hostLoad bytes s = .loaded t) :
    KeepsInvariants s t := by
  obtain ⟨hfits, rfl⟩ := hostLoad_eq_loaded h
  refine ⟨fun hs => Memory.wf_writeBytes s.mem 0x200 bytes hs (by simp only [Config.memSize]; omega),
    fun hs hrun a ha => ?_, id⟩
  have hout : ¬(0x200 ≤ a ∧ a < 0x200 + bytes.length) := by
    simp only [Config.reservedEnd] at ha; omega
  exact (Memory.read_writeBytes_outside hout).trans (hs hrun a ha)

/-- Settles O53: reset by its values, a load by where it writes; no invariant reads the keys or REDRAW. -/
theorem hostOperationsKeepTheInvariants : Obligations.HostOperationsKeepTheInvariants := by
  rintro s bytes k b t (rfl | hload | rfl | rfl)
  · exact hostReset_keepsInvariants s
  · exact hostLoad_keepsInvariants hload
  · exact ⟨id, id, id⟩
  · exact ⟨id, id, id⟩

/-! ## The surfaces -/

theorem key_hostSetKey_self (k : Fin 16) (b : Bool) (s : State) : (hostSetKey k b s).key.get k = b :=
  Vector.getElem_set_self k.isLt

theorem key_hostSetKey_ne {k j : Fin 16} (h : j ≠ k) (b : Bool) (s : State) :
    (hostSetKey k b s).key.get j = s.key.get j :=
  Vector.getElem_set_ne k.isLt j.isLt (Fin.val_ne_of_ne h.symm)

/-- Any nonzero byte is pressed (10_state R26). -/
theorem key_hostSetKeyByte (k : Fin 16) (c : Byte) (s : State) :
    (hostSetKeyByte k c s).key.get k = true ↔ c.toNat ≠ 0 := by
  rw [hostSetKeyByte, key_hostSetKey_self, bne_iff_ne, ne_eq, ← BitVec.toNat_inj]
  rfl

@[simp] theorem length_hostReadFramebuffer (s : State) : (hostReadFramebuffer s).length = 2048 := by
  simp [hostReadFramebuffer]

/-- Column and row are the remainder and the quotient of the index (10_state R25). -/
theorem hostReadFramebuffer_getElem? (s : State) {x y : Nat} (hx : x < 64) (hy : y < 32) :
    (hostReadFramebuffer s)[x + 64 * y]? = some (s.fb.pixel x y) := by
  have hlt : x + 64 * y < 64 * 32 := by omega
  have hcol : (x + 64 * y) % 64 = x := by omega
  have hrow : (x + 64 * y) / 64 = y := by omega
  simp [hostReadFramebuffer, hlt, hcol, hrow]

/-- Settles O57: the key write and the pixel read by their lemmas; the rest is what the operations are. -/
theorem hostSurfacesShowTheState : Obligations.HostSurfacesShowTheState := by
  intro s k b
  exact ⟨key_hostSetKey_self k b s, fun j hj => key_hostSetKey_ne hj b s, rfl,
    fun c => key_hostSetKeyByte k c s, length_hostReadFramebuffer s,
    fun x y => hostReadFramebuffer_getElem? s, rfl, rfl⟩

/-! ## What the host and a program observe of each other -/

/-- A load answers by the image's length alone. -/
theorem hostDo_load_answer (bytes : List Byte) :
    ∃ answer, ∀ s, ∃ t, hostDo (.load bytes) s = some (answer, t) := by
  rcases Nat.lt_or_ge 3584 bytes.length with hlarge | hfits
  · refine ⟨.programTooLarge bytes.length, fun s => ⟨s, ?_⟩⟩
    rw [hostDo, hostLoad_too_large bytes s hlarge]
    rfl
  · refine ⟨.done, fun s => ⟨{ s with mem := s.mem.writeBytes 0x200 bytes }, ?_⟩⟩
    rw [hostDo, hostLoad_fits bytes s hfits]
    rfl

/-- Every operation but the step answers alike where the host's view is the same. -/
theorem hostDo_answer_of_view {op : HostOp} {s u : State} (hop : op ≠ .step) (h : hostView s = hostView u) :
    ∃ answer t w, hostDo op s = some (answer, t) ∧ hostDo op u = some (answer, w) := by
  obtain ⟨hpixels, hredraw, hdt, hst⟩ := (hostView_eq_iff s u).mp h
  cases op with
  | step => exact absurd rfl hop
  | load bytes =>
    obtain ⟨answer, hanswer⟩ := hostDo_load_answer bytes
    obtain ⟨t, ht⟩ := hanswer s
    obtain ⟨w, hw⟩ := hanswer u
    exact ⟨answer, t, w, ht, hw⟩
  | readFramebuffer => exact ⟨_, _, _, rfl, by rw [hostDo_readFramebuffer, hpixels]⟩
  | takeRedraw => exact ⟨.redraw s.redraw, _, _, rfl, by rw [hostDo_takeRedraw, hredraw]⟩
  | readTimers => exact ⟨.timers s.dt s.st, _, _, rfl, by rw [hostDo_readTimers, hdt, hst]⟩
  | reset | setKey | setKeyByte => exact ⟨.done, _, _, rfl, rfl⟩

/-- Settles O60: the host's step is the machine's, which a halted core has not; the other operations answer from the
view; and no part of a step reads REDRAW. -/
theorem hostSeesOnlyItsSurfaces : Obligations.HostSeesOnlyItsSurfaces := by
  refine ⟨fun s hrun => ?_, fun s r hr => ?_, fun op s u => hostDo_answer_of_view, fun s t b hstep => ?_⟩
  · obtain ⟨t, ht⟩ := runningCoreAlwaysSteps s hrun
    exact ⟨t, ht, hostStep_of_next s t ht⟩
  · exact hostStep_of_fault s (.halted r) (haltedCoreHasNoStep s r hr)
  · obtain ⟨hrun, -⟩ := step_cases s t hstep
    obtain ⟨u, c, hu, hw⟩ := step_setRedraw hrun b
    obtain rfl : u = t := Host.Outcome.next.inj (hu.symm.trans hstep)
    exact ⟨u.setRedraw c, hw, rfl⟩

end Sys2Proof.Machine
end

section
/-! SUPPORT. Reset, load and boot (70_reset R120 to R122): what the fields hold after reset, where a load writes and
what it leaves alone, and the launch state. -/

namespace Sys2Proof.Machine

/-! ## The reset byte of an address (20_memory R34, R35) -/

theorem Memory.some_unlisted_of_font {a : Nat} (h : a < 80) : some (Memory.unlisted a) = Config.font[a]? := by
  have hlt : a < Config.font.length := h
  simp [Memory.unlisted, Config.fontBase, hlt]

theorem Memory.unlisted_of_above_font {a : Nat} (h : 80 ≤ a) : Memory.unlisted a = 0 := by
  have hge : Config.font.length ≤ a := h
  simp [Memory.unlisted, Config.fontBase, hge]

/-! ## Reset -/

theorem read_hostReset (s : State) (a : Nat) : (hostReset s).mem.read a = Memory.unlisted a := rfl

theorem getV_hostReset (s : State) (k : Reg) : (hostReset s).getV k = 0 := Vector.get_replicate _ _ k

theorem stack_hostReset (s : State) (k : Fin 16) : (hostReset s).stack.get k = 0 := Vector.get_replicate _ _ k

theorem key_hostReset (s : State) (k : Fin 16) : (hostReset s).key.get k = false := Vector.get_replicate _ _ k

theorem fb_hostReset (s : State) : (hostReset s).fb = Framebuffer.clear := rfl

theorem pixel_hostReset (s : State) (px py : Nat) : (hostReset s).fb.pixel px py = false := by
  rw [fb_hostReset, Framebuffer.pixel_clear]

theorem memoryCanonical_reset : MemoryCanonical State.reset := Memory.wf_nil

theorem reservedIntact_reset : ReservedIntact State.reset := fun _ _ _ => rfl

/-- No entry of the call stack is in use, so none has to be bounded. -/
theorem returnsBounded_reset : ReturnsBounded State.reset :=
  fun _ => ⟨show 0x200 ≤ 0x10FE by decide, fun k hk => absurd hk (Nat.not_lt_zero k.val)⟩

/-- Settles O52: no cell is listed, so memory is canonical and reads as the reset bytes; pc is 0x200 and the call stack
empty. -/
theorem resetMeetsTheInvariants : Obligations.ResetMeetsTheInvariants :=
  ⟨memoryCanonical_reset, reservedIntact_reset, returnsBounded_reset⟩

/-- Settles O54: memory by the reset byte of each address, the arrays by what each is filled with, the scalars by
definition. -/
theorem resetSetsEveryField : Obligations.ResetSetsEveryField := by
  intro s
  refine ⟨hostReset s, rfl, fun a ha => ?_, fun a ha => ?_, getV_hostReset s, stack_hostReset s, key_hostReset s,
    rfl, rfl, rfl, rfl, rfl, pixel_hostReset s, rfl, rfl⟩
  · rw [read_hostReset, Memory.some_unlisted_of_font ha]
  · rw [read_hostReset, Memory.unlisted_of_above_font ha]

/-! ## Load -/

theorem Memory.some_read_writeBytes {k : Nat} {bs : List Byte} (m : Memory) (a : Nat) (h : k < bs.length) :
    some ((m.writeBytes a bs).read (a + k)) = bs[k]? := by
  have hin : a ≤ a + k ∧ a + k < a + bs.length := ⟨Nat.le_add_right a k, Nat.add_lt_add_left h a⟩
  rw [Memory.read_writeBytes, if_pos hin, Nat.add_sub_cancel_left]
  simp [h]

/-- Settles O55: a load that fits writes the image's block at 0x200, where it reads back and outside which memory reads
as before; a longer image is refused. -/
theorem loadCopiesTheImage : Obligations.LoadCopiesTheImage := by
  refine fun bytes s => ⟨fun hfits => ⟨_, hostLoad_fits bytes s hfits, ?_, ?_, rfl⟩, hostLoad_too_large bytes s⟩
  · exact fun k => Memory.some_read_writeBytes s.mem 0x200
  · exact fun a => Memory.read_writeBytes_outside

/-! ## Boot -/

/-- Settles O56: the load after a reset writes the image, and every byte outside it reads as reset left it. -/
theorem bootReachesLaunchState : Obligations.BootReachesLaunchState := by
  intro bytes s hfits
  obtain ⟨t, hload, himage, houtside, hrest⟩ := (loadCopiesTheImage bytes (hostReset s)).1 hfits
  have hreset : ∀ a, a < 0x200 ∨ 0x200 + bytes.length ≤ a → t.mem.read a = Memory.unlisted a :=
    fun a ha => (houtside a (by omega)).trans (read_hostReset s a)
  refine ⟨t, hload, fun a ha => ?_, fun a hlo hhi => ?_, himage, fun a ha => ?_, hrest⟩
  · rw [hreset a (by omega), Memory.some_unlisted_of_font ha]
  · rw [hreset a (.inl hhi), Memory.unlisted_of_above_font hlo]
  · rw [hreset a (.inr ha), Memory.unlisted_of_above_font (by omega)]

end Sys2Proof.Machine
end
